-- ==== Sys2Proof/Word.lean ====
section
/-! DEFINITION. The word types of the machine: a byte and a program-counter value. -/

namespace Sys2Proof

/-- A register, a memory cell, an operand byte or an emitted value: 8 bits, unsigned
(spec/10_state.md R12, R17, R21). -/
abbrev Byte := BitVec 8

/-- A program-counter value: 9 bits (spec/10_state.md R16). -/
abbrev Pc := BitVec 9

/-- A general-register number, 0 to 7 (spec/10_state.md R11). -/
abbrev RegIx := Fin 8

end Sys2Proof
end

