-- ==== Sys2Proof/Syntax.lean ====
section
/-! DEFINITION. The ten instructions of spec/30_encoding.md R56, one constructor per row of spec/opcode_table.json.
An operand is the WHOLE operand byte, register operands too: the byte is not masked, and a register operand above 7
belongs to the instruction, which takes RegIndex for it (R54; log 7). -/

namespace Sys2Proof

/-- One instruction with its operand bytes (formats `RI`, `R`, `RR`, `Z` of R53). -/
inductive Instr where
  /-- `LDI Rd, imm` (R80). -/
  | ldi (d imm : Byte)
  /-- `PRN Rs` (R82). -/
  | prn (src : Byte)
  /-- `ADD Rd, Rs` (R84). -/
  | add (d src : Byte)
  /-- `SUB Rd, Rs` (R85). -/
  | sub (d src : Byte)
  /-- `MUL Rd, Rs` (R86). -/
  | mul (d src : Byte)
  /-- `PUSH Rs` (R91). -/
  | push (src : Byte)
  /-- `POP Rd` (R92). -/
  | pop (d : Byte)
  /-- `CALL Rr` (R95). -/
  | call (target : Byte)
  /-- `RET` (R96). -/
  | ret
  /-- `HLT` (R100). -/
  | hlt
  deriving DecidableEq, Repr

/-- The instruction kinds the decoder tells apart by the opcode byte alone (R60). -/
inductive OpKind where
  | ldi | prn | add | sub | mul | push | pop | call | ret | hlt
  deriving DecidableEq, Repr

end Sys2Proof
end

