-- ==== Sys2Proof/Decode.lean ====
section
/-! DEFINITION. The decoder and the encoder (spec/30_encoding.md).
`decodeFrom` is the ONE decoder: the machine's fetch reads it over memory, `decode` reads it over a list of bytes.
The opcode values stand here and not in Config.lean so that a repair may mend them: seven of the ten are
`[from general knowledge, not in source]` (log 1). -/

namespace Sys2Proof

/-! ### The opcode map, R56 -/

/-- `OPC_LDI`, given by the source. -/
def opcLdi : Byte := 0b10000010
/-- `OPC_PRN`, given by the source. -/
def opcPrn : Byte := 0b01000111
/-- `OPC_ADD`. PRESUMED (log 1): the spec marks its low six bits as general knowledge. -/
def opcAdd : Byte := 0b10100000
/-- `OPC_SUB`. PRESUMED (log 1). -/
def opcSub : Byte := 0b10100001
/-- `OPC_MUL`. PRESUMED (log 1). -/
def opcMul : Byte := 0b10100010
/-- `OPC_PUSH`. PRESUMED (log 1). -/
def opcPush : Byte := 0b01000101
/-- `OPC_POP`. PRESUMED (log 1). -/
def opcPop : Byte := 0b01000110
/-- `OPC_CALL`. PRESUMED (log 1). -/
def opcCall : Byte := 0b01010000
/-- `OPC_RET`. PRESUMED (log 1). -/
def opcRet : Byte := 0b00010001
/-- `OPC_HLT`, given by the source. -/
def opcHlt : Byte := 0b00000001

/-- The opcode byte of each kind, in the order of the spec's table (R56). -/
def OpKind.opcode : OpKind → Byte
  | .ldi => opcLdi
  | .prn => opcPrn
  | .add => opcAdd
  | .sub => opcSub
  | .mul => opcMul
  | .push => opcPush
  | .pop => opcPop
  | .call => opcCall
  | .ret => opcRet
  | .hlt => opcHlt

/-- The ten kinds, in the order of the spec's table (R56). -/
def allKinds : List OpKind := [.ldi, .prn, .add, .sub, .mul, .push, .pop, .call, .ret, .hlt]

/-- Opcode identity: all 8 bits are compared with the ten values (R57, R60); `none` is `unknown` (R58). -/
def decodeOpcode (op : Byte) : Option OpKind := allKinds.find? (fun k => k.opcode == op)

/-! ### Widths, R51 and R52 -/

/-- `OC = op[7:6]`, the number of operand bytes (R51). -/
def operandCount (op : Byte) : Nat := (op >>> 6).toNat

/-- `n = op[7:6] + 1`, the instruction width in bytes, computed from the opcode byte alone (R52). -/
def opWidth (op : Byte) : Nat := operandCount op + 1

/-! ### The decoder -/

/-- The instruction of a kind with its operand bytes `o1`, `o2` (R53). A format without an operand ignores that byte. -/
def OpKind.instr (k : OpKind) (o1 o2 : Byte) : Instr :=
  match k with
  | .ldi => .ldi o1 o2
  | .prn => .prn o1
  | .add => .add o1 o2
  | .sub => .sub o1 o2
  | .mul => .mul o1 o2
  | .push => .push o1
  | .pop => .pop o1
  | .call => .call o1
  | .ret => .ret
  | .hlt => .hlt

/-- Operand byte number `k`, read only if the instruction owns it (R73). The zero that stands for a byte it does not own
is ignored by `OpKind.instr` (log 10). -/
def readOwned {ε : Type} (read : Nat → Except ε Byte) (k : Nat) (owned : Bool) : Except ε Byte :=
  if owned then read k else .ok 0

/-- Phases 1 to 3 of the step (spec/40_engine_cycle.md R71 to R73) over any way of reading byte number `k` of the
instruction: the opcode byte is read, recognised on all its bits or rejected by `unknown`, and then exactly the
`n - 1` operand bytes it owns are read, in ascending order. An unknown opcode reads no operand (R59). -/
def decodeFrom {ε : Type} (read : Nat → Except ε Byte) (unknown : Byte → ε) : Except ε Instr := do
  let op ← read 0
  let n := opWidth op
  match decodeOpcode op with
  | none => .error (unknown op)
  | some k =>
    let o1 ← readOwned read 1 (decide (2 ≤ n))
    let o2 ← readOwned read 2 (decide (n = 3))
    .ok (k.instr o1 o2)

/-- Why a list of bytes is no instruction. -/
inductive DecodeError where
  /-- The opcode byte is none of the ten (R58). -/
  | unknownOpcode (op : Byte)
  /-- The list ends before byte number `k` of the instruction. -/
  | missingByte (k : Nat)
  deriving DecidableEq, Repr

/-- Byte number `k` of a list, for `decodeFrom`. -/
def byteOfList (bytes : List Byte) (k : Nat) : Except DecodeError Byte :=
  match bytes[k]? with
  | some b => .ok b
  | none => .error (.missingByte k)

/-- The kind of an instruction. -/
def Instr.kind : Instr → OpKind
  | .ldi _ _ => .ldi
  | .prn _ => .prn
  | .add _ _ => .add
  | .sub _ _ => .sub
  | .mul _ _ => .mul
  | .push _ => .push
  | .pop _ => .pop
  | .call _ => .call
  | .ret => .ret
  | .hlt => .hlt

/-- The opcode byte of an instruction (R56). -/
def Instr.opcode (i : Instr) : Byte := i.kind.opcode

/-- The width of an instruction, from the top two bits of its opcode byte and never from its mnemonic (R52). -/
def Instr.width (i : Instr) : Nat := opWidth i.opcode

/-- Decode the instruction at the head of a list of bytes, and give the bytes after it. Total; every rejection has a
name. -/
def decode (bytes : List Byte) : Except DecodeError (Instr × List Byte) :=
  match decodeFrom (byteOfList bytes) .unknownOpcode with
  | .ok i => .ok (i, bytes.drop i.width)
  | .error e => .error e

/-! ### The encoder -/

/-- The bytes of an instruction, lowest address first (R50, R53, R61). -/
def encode : Instr → List Byte
  | .ldi d imm => [opcLdi, d, imm]
  | .prn src => [opcPrn, src]
  | .add d src => [opcAdd, d, src]
  | .sub d src => [opcSub, d, src]
  | .mul d src => [opcMul, d, src]
  | .push src => [opcPush, src]
  | .pop d => [opcPop, d]
  | .call target => [opcCall, target]
  | .ret => [opcRet]
  | .hlt => [opcHlt]

/-! ### Opcode-table words -/

/-- The three bytes, lowest address first, of an instruction whose bits are the low `nbits` bits of `w`, numbered as
spec/opcode_table.json numbers them; the bits above are 0. -/
def tableWordBytes (nbits w : Nat) : List Byte :=
  let v := w % 2 ^ nbits
  [BitVec.ofNat 8 v, BitVec.ofNat 8 (v / 256), BitVec.ofNat 8 (v / 65536)]

/-- The instruction the decoder reads from an opcode-table word. -/
def decodeTableWord (nbits w : Nat) : Option Instr :=
  match decode (tableWordBytes nbits w) with
  | .ok (i, _) => some i
  | .error _ => none

/-! ### Assembler spelling, R61 -/

/-- The mnemonic, in capitals. -/
def OpKind.mnemonic : OpKind → String
  | .ldi => "LDI"
  | .prn => "PRN"
  | .add => "ADD"
  | .sub => "SUB"
  | .mul => "MUL"
  | .push => "PUSH"
  | .pop => "POP"
  | .call => "CALL"
  | .ret => "RET"
  | .hlt => "HLT"

/-- A register operand: `R` followed by its index in decimal. -/
def registerText (o : Byte) : String := "R" ++ toString o.toNat

/-- The assembly text of an instruction: the mnemonic, then the operands separated by a comma; an immediate is a
decimal number (R61). -/
def Instr.assembly (i : Instr) : String :=
  match i with
  | .ldi d imm => i.kind.mnemonic ++ " " ++ registerText d ++ ", " ++ toString imm.toNat
  | .prn src => i.kind.mnemonic ++ " " ++ registerText src
  | .add d src => i.kind.mnemonic ++ " " ++ registerText d ++ ", " ++ registerText src
  | .sub d src => i.kind.mnemonic ++ " " ++ registerText d ++ ", " ++ registerText src
  | .mul d src => i.kind.mnemonic ++ " " ++ registerText d ++ ", " ++ registerText src
  | .push src => i.kind.mnemonic ++ " " ++ registerText src
  | .pop d => i.kind.mnemonic ++ " " ++ registerText d
  | .call target => i.kind.mnemonic ++ " " ++ registerText target
  | .ret => i.kind.mnemonic
  | .hlt => i.kind.mnemonic

end Sys2Proof
end

