-- ==== Sys2Proof/Config.lean ====
section
/-! DEFINITION. The implementation parameters of spec/00_scope.md R2 at the values this hardware takes.
The ten opcode values, parameters of the same rule, stand in Sys2Proof/Decode.lean.
The spec leaves no value free (spec/93_implementation_defined.md), so no constant here is opaque. -/

namespace Sys2Proof.Config

/-- `MEM_SIZE` (N), the number of memory cells (R2, R30; log 2). -/
abbrev memSize : Nat := 256

/-- `SP_INDEX`, the register that is the stack pointer (R2, R13). -/
abbrev spIndex : RegIx := 7

/-- `SP_RESET`, the stack pointer's reset value and the upper limit of its increment (R2, R23, R90; log 2). -/
abbrev spReset : Byte := 0xF4

/-- `PC_RESET` (R2, R23). -/
abbrev pcReset : Pc := 0

end Sys2Proof.Config
end

