-- ==== Sys2Proof/Machine/State.lean ====
section
/-! DEFINITION. The state of the machine: exactly the six items of spec/10_state.md R10, as plain data, and its value
after reset (R23). -/

namespace Sys2Proof.Machine

/-- Memory as a list of listed cells (address, byte): addresses strictly rising and below `MEM_SIZE`, no entry equal to
what an unlisted address reads as. `Memory.wf` in Machine/Ops.lean states that form. -/
abbrev Memory := List Host.Cell

/-- The run state (R19). -/
inductive RunState where
  /-- Steps are executed. -/
  | running
  /-- After HLT; terminal. -/
  | halted
  /-- After any hardware fault; terminal. -/
  | faulted
  deriving DecidableEq, Repr

/-- The six causes of a hardware fault (spec/60_exceptions.md R110). -/
inductive FaultCause where
  /-- Code 1: the fetched opcode byte is none of the ten. -/
  | unknownOpcode
  /-- Code 2: an address presented to memory lies outside it. -/
  | memBounds
  /-- Code 3: an operand byte used as a register index is above 7. -/
  | regIndex
  /-- Code 4: a stack-pointer decrement from 0, or an increment from 0xF4 or above. -/
  | stackBounds
  /-- Code 5: a value above 255 presented to a memory write. -/
  | byteRange
  /-- Code 6: listed so that the ALU interface is complete; no step raises it (spec/40_engine_cycle.md R77; log 6). -/
  | aluUnsupported
  deriving DecidableEq, Repr

/-- The fault record (R20): the cause, the value of `pc` when the step began, and the cause's own value (R111), a
mathematical integer (log 8). -/
structure FaultRecord where
  cause : FaultCause
  pcAt : Pc
  info : Int
  deriving DecidableEq, Repr

/-- The whole architectural state (R10). -/
structure State where
  /-- The general registers `x[0]` to `x[7]` (R11); `x[7]` is the stack pointer (R13). -/
  regs : Vector Byte 8
  /-- The program counter (R15, R16). -/
  pc : Pc
  /-- Memory (R17). -/
  mem : Memory
  /-- The run state (R19). -/
  run : RunState
  /-- The fault record (R20). -/
  fault : Option FaultRecord
  /-- The output stream, oldest value first (R21). -/
  out : List Byte
  deriving DecidableEq, Repr

/-- Why the MODEL would stop outside the spec: there is no such reason. Every fault the spec describes is a next state
with `run = faulted` and a fault record (R113; log 3), and every state has exactly one outcome (R70), so nobody raises
a value of this type. Safe. -/
inductive Fault where
  deriving DecidableEq, Repr

/-- Why the model gives no meaning. -/
inductive Refusal where
  /-- Raised by an arm of `exec` whose instruction has no meaning yet; no arm is left so. Safe. -/
  | notModelled (mnemonic : String)
  /-- Raised by the load port, never by a step: an image longer than `MEM_SIZE` is refused and no run starts
  (spec/20_memory.md R44). Safe. -/
  | imageTooLong
  /-- Raised by the load port, never by a step: the port is closed once the first step has been taken
  (spec/20_memory.md R44). Safe. -/
  | loadPortClosed
  deriving DecidableEq, Repr

/-- The machine right after reset (R23): registers 0 but for the stack pointer, `pc` 0, every cell 0 (nothing listed),
RUNNING, no fault record, no output. -/
def State.reset : State where
  regs := #v[0, 0, 0, 0, 0, 0, 0, Config.spReset]
  pc := Config.pcReset
  mem := []
  run := .running
  fault := none
  out := []

end Sys2Proof.Machine
end

