-- ==== Sys2Proof/Machine/Ops.lean ====
section
/-! DEFINITION. The named operations over memory, registers, the program counter and the stack pointer, and the taking
of a fault. There is no return from a fault (spec/60_exceptions.md R114), so no such operation stands beside it. -/

namespace Sys2Proof.Machine

/-! ### Memory as data -/

/-- What a cell that nothing has written reads as: memory is zero-initialised (spec/10_state.md R17, R23). -/
def Memory.unlisted : Byte := 0

/-- The byte at an address: the listed byte, else `unlisted`. -/
def Memory.read : Memory → Nat → Byte
  | [], _ => Memory.unlisted
  | (x, b) :: rest, a => if x = a then b else Memory.read rest a

/-- Store a byte, keeping the canonical form: writing `unlisted` removes the entry. -/
def Memory.write : Memory → Nat → Byte → Memory
  | [], a, v => if v = Memory.unlisted then [] else [(a, v)]
  | (x, b) :: rest, a, v =>
    if a < x then
      if v = Memory.unlisted then (x, b) :: rest else (a, v) :: (x, b) :: rest
    else if a = x then
      if v = Memory.unlisted then rest else (a, v) :: rest
    else (x, b) :: Memory.write rest a v

/-- The canonical form: addresses strictly rising and below `MEM_SIZE`, no entry equal to `unlisted`. -/
def Memory.wf : Memory → Bool
  | [] => true
  | (x, b) :: rest =>
    decide (x < Config.memSize) && b != Memory.unlisted && rest.all (fun c => decide (x < c.1)) && Memory.wf rest

/-! ### Fault reports -/

/-- What an operation reports when it faults: the cause and the cause's value (R110, R111). -/
structure FaultReport where
  cause : FaultCause
  info : Int
  deriving DecidableEq, Repr

/-- The numeric code of a cause (R110). -/
def FaultCause.code : FaultCause → Nat
  | .unknownOpcode => 1
  | .memBounds => 2
  | .regIndex => 3
  | .stackBounds => 4
  | .byteRange => 5
  | .aluUnsupported => 6

/-! ### The memory controller: the two checked primitives -/

/-- `MemRead(a, 1)` (spec/20_memory.md R31); the address is a mathematical integer (R30). -/
def memRead (m : Memory) (a : Int) : Except FaultReport Byte :=
  if 0 ≤ a ∧ a < (Config.memSize : Int) then .ok (m.read a.toNat) else .error ⟨.memBounds, a⟩

/-- `MemWrite(a, 1, v)` (R32): the address check comes before the value check. -/
def memWrite (m : Memory) (a : Int) (v : Nat) : Except FaultReport Memory :=
  if a < 0 ∨ (Config.memSize : Int) ≤ a then .error ⟨.memBounds, a⟩
  else if 255 < v then .error ⟨.byteRange, v⟩
  else .ok (m.write a.toNat (BitVec.ofNat 8 v))

/-! ### Registers and the program counter -/

/-- `x[r]`: no register is hard-wired (spec/10_state.md R14). -/
def State.reg (s : State) (r : RegIx) : Byte := s.regs[r]

/-- `x[r] <- v`. -/
def State.setReg (s : State) (r : RegIx) (v : Byte) : State := { s with regs := s.regs.set r v }

/-- The stack pointer `x[7]` (R13). -/
def State.sp (s : State) : Byte := s.reg Config.spIndex

/-- `x[7] <- v`. -/
def State.setSp (s : State) (v : Byte) : State := s.setReg Config.spIndex v

/-- `pc <- t`. -/
def State.setPc (s : State) (t : Pc) : State := { s with pc := t }

/-- The generic advance `pc <- pc + n` (spec/40_engine_cycle.md R74). -/
def State.advance (s : State) (n : Nat) : State := s.setPc (s.pc + BitVec.ofNat 9 n)

/-- Replace memory. -/
def State.setMem (s : State) (m : Memory) : State := { s with mem := m }

/-- `out <- out ++ [v]` (R21). -/
def State.emit (s : State) (v : Byte) : State := { s with out := s.out ++ [v] }

/-- `run <- r` (R19). -/
def State.setRun (s : State) (r : RunState) : State := { s with run := r }

/-- The byte at an address, for an observer of the state. -/
def State.byteAt (s : State) (a : Nat) : Byte := s.mem.read a

/-! ### The stack-pointer sequencer, spec/44_stack.md R90 -/

/-- `SpDec`: defined only from 1 upward. -/
def spDec (sp : Byte) : Except FaultReport Byte :=
  if sp.toNat = 0 then .error ⟨.stackBounds, sp.toNat⟩ else .ok (sp - 1)

/-- `SpInc`: defined only below `SP_RESET`. -/
def spInc (sp : Byte) : Except FaultReport Byte :=
  if sp.toNat < Config.spReset.toNat then .ok (sp + 1) else .error ⟨.stackBounds, sp.toNat⟩

/-! ### Taking a fault, spec/60_exceptions.md R113 -/

/-- `run <- FAULTED; fault <- (cause, at, info)`, and nothing else. -/
def State.takeFault (s : State) (f : FaultReport) : State :=
  { s with run := .faulted, fault := some ⟨f.cause, s.pc, f.info⟩ }

/-- The end of an instruction: its result state, or the fault it raised, taken in the state the step began with, so
that a faulting instruction has no effect of its own (R113; log 3). -/
def State.finish (s : State) (r : Except FaultReport State) : Host.Outcome State Fault Refusal :=
  match r with
  | .ok t => .next t
  | .error f => .next (s.takeFault f)

end Sys2Proof.Machine
end

