-- ==== Sys2Proof/Machine/Fetch.lean ====
section
/-! DEFINITION. Fetch, decode and operand fetch: phases 1 to 3 of the step (spec/40_engine_cycle.md R71 to R73). -/

namespace Sys2Proof.Machine

/-- Byte number `k` of the instruction at `pc`. The address `pc + k` is not reduced before the bounds check sees it
(spec/00_scope.md section 5). -/
def fetchByte (s : State) (k : Nat) : Except FaultReport Byte := memRead s.mem ((s.pc.toNat : Int) + k)

/-- The report of an unknown opcode byte (spec/46_hlt_unknown.md R101). -/
def unknownOpcodeReport (op : Byte) : FaultReport := ⟨.unknownOpcode, op.toNat⟩

/-- Fetch and decode the instruction at `pc`, reading memory afresh (spec/20_memory.md R41). -/
def fetch (s : State) : Except FaultReport Instr := decodeFrom (fetchByte s) unknownOpcodeReport

/-- The bytes of memory from `pc` upward to the end of memory, for statements about what a step runs. -/
def State.codeBytes (s : State) : List Byte :=
  (List.range (Config.memSize - s.pc.toNat)).map (fun k => s.byteAt (s.pc.toNat + k))

/-- Store bytes at ascending addresses from `a`; an address past the end of memory stores nothing. -/
def storeBytes (m : Memory) (a : Nat) : List Byte → Memory
  | [] => m
  | b :: rest => storeBytes (if a < Config.memSize then m.write a b else m) (a + 1) rest

end Sys2Proof.Machine
end

