-- ==== Sys2Proof/Machine/Boot.lean ====
section
/-! DEFINITION. What the host may do (spec/70_reset_and_hazards.md R132): reset (R130), the load port (spec/20_memory.md
R44), and what it may read; with the order of events that starts a run (R131). None of it is part of a step. -/

namespace Sys2Proof.Machine

/-- Reset, from any state: the same total re-initialisation, memory included (R130). -/
def hostReset (_ : State) : State := State.reset

/-- The load port (R44). It is open in the state reset leaves and closed in every other: no step ends in that state, so
it is closed once the first step has been taken (log 9). An image of at most `MEM_SIZE` bytes is stored from address 0
upward; a longer one is refused whole. -/
def loadPort (image : List Byte) (s : State) : Host.Outcome State Fault Refusal :=
  if s ≠ State.reset then .refused .loadPortClosed
  else if image.length ≤ Config.memSize then .next (s.setMem (storeBytes s.mem 0 image))
  else .refused .imageTooLong

/-- Reset, then load (R131): the state a run starts from. -/
def boot (image : List Byte) : Host.Outcome State Fault Refusal := loadPort image State.reset

/-- What the host reads of the core: always `run`, `fault` and `out`; the registers, `pc` and memory or nothing. -/
structure HostView where
  run : RunState
  fault : Option FaultRecord
  out : List Byte
  rest : Option (Vector Byte 8 × Pc × Memory)
  deriving DecidableEq, Repr

/-- The host's read (R132, R44): all state after a terminal state, and `run`, `fault` and `out` alone before it. -/
def hostRead (s : State) : HostView where
  run := s.run
  fault := s.fault
  out := s.out
  rest := if s.run = .running then none else some (s.regs, s.pc, s.mem)

end Sys2Proof.Machine
end

