-- ==== Sys2Proof/Machine/Operands.lean ====
section
/-! DEFINITION. The operand forms: a register operand, with the check of phase 4 of the step, and the immediate. -/

namespace Sys2Proof.Machine

/-- A register operand is the whole operand byte; above 7 it raises `RegIndex(o)`, and no bit is masked away
(spec/30_encoding.md R54). -/
def regOperand (o : Byte) : Except FaultReport RegIx :=
  if h : o.toNat < 8 then .ok ⟨o.toNat, h⟩ else .error ⟨.regIndex, o.toNat⟩

/-- The immediate of LDI is the whole operand byte as it is (R55). -/
def immediate (o : Byte) : Byte := o

end Sys2Proof.Machine
end

