-- ==== Sys2Proof/Machine/Alu.lean ====
section
/-! DEFINITION. The ALU (spec/40_engine_cycle.md R77) and its three instructions ADD, SUB and MUL (spec/43_alu.md). -/

namespace Sys2Proof.Machine

/-- The ALU's operation selector: the decoder yields only these three values, so "unsupported operation" cannot occur
(R77; log 6). -/
inductive AluOp where
  | add | sub | mul
  deriving DecidableEq, Repr

/-- The exact mathematical result (R83). -/
def aluExact (op : AluOp) (a b : Byte) : Int :=
  match op with
  | .add => (a.toNat : Int) + b.toNat
  | .sub => (a.toNat : Int) - b.toNat
  | .mul => (a.toNat : Int) * b.toNat

/-- The exact result reduced modulo 256 (R83). -/
def aluResult (op : AluOp) (a b : Byte) : Byte := BitVec.ofInt 8 (aluExact op a b)

/-- `apply(operation, dest_register, src_register)` (R77): both operands are read before the destination is written. -/
def aluApply (op : AluOp) (d src : RegIx) (s : State) : State := s.setReg d (aluResult op (s.reg d) (s.reg src))

/-- The shape ADD, SUB and MUL share: check `o1`, check `o2`, apply, advance by the width the opcode byte gives. -/
def execAlu (op : AluOp) (opc d src : Byte) (s : State) : Host.Outcome State Fault Refusal :=
  s.finish do
    let rd ← regOperand d
    let rs ← regOperand src
    .ok ((aluApply op rd rs s).advance (opWidth opc))

/-- ADD (R84): `x[o1] <- (x[o1] + x[o2]) mod 256; pc <- pc + 3`. -/
def execAdd (d src : Byte) (s : State) : Host.Outcome State Fault Refusal := execAlu .add opcAdd d src s

/-- SUB (R85): `x[o1] <- (x[o1] - x[o2]) mod 256; pc <- pc + 3`. -/
def execSub (d src : Byte) (s : State) : Host.Outcome State Fault Refusal := execAlu .sub opcSub d src s

/-- MUL (R86): `x[o1] <- (x[o1] * x[o2]) mod 256; pc <- pc + 3`. -/
def execMul (d src : Byte) (s : State) : Host.Outcome State Fault Refusal := execAlu .mul opcMul d src s

end Sys2Proof.Machine
end

