-- ==== Sys2Proof/Machine/Control.lean ====
section
/-! DEFINITION. CALL, RET (spec/45_call_ret.md) and HLT (spec/46_hlt_unknown.md). -/

namespace Sys2Proof.Machine

/-- The return address `pc + 2`: the constant 2, on mathematical integers (R95). -/
def returnAddress (pc : Pc) : Nat := pc.toNat + 2

/-- CALL (R95). The target register is read after the decrement, so `CALL R7` jumps to the decremented stack pointer.
The generic advance is skipped (spec/40_engine_cycle.md R74). -/
def execCall (target : Byte) (s : State) : Host.Outcome State Fault Refusal :=
  s.finish do
    let r ← regOperand target
    let t ← spDec s.sp
    let m ← memWrite s.mem t.toNat (returnAddress s.pc)
    let g := if r = Config.spIndex then t else s.reg r
    .ok (((s.setMem m).setSp t).setPc (g.setWidth 9))

/-- RET (R96): the byte at the stack pointer becomes `pc`, and the stack pointer is incremented. The generic advance is
skipped (R74). -/
def execRet (s : State) : Host.Outcome State Fault Refusal :=
  s.finish do
    let v ← memRead s.mem s.sp.toNat
    let t ← spInc s.sp
    .ok ((s.setSp t).setPc (v.setWidth 9))

/-- HLT (R100): `run <- HALTED`; `pc` is not advanced. -/
def execHlt (s : State) : Host.Outcome State Fault Refusal := s.finish (.ok (s.setRun .halted))

end Sys2Proof.Machine
end

