-- ==== Sys2Proof/Machine/Flags.lean ====
section
/-! DEFINITION. There is nothing to define: the core has no flags, no condition codes and no predicate registers, and
no instruction sets or reads one (spec/10_state.md R22). The carry, the borrow and the high byte of a product are
recorded nowhere (spec/43_alu.md R83). -/
end

