-- ==== Sys2Proof/Machine/LoadOutput.lean ====
section
/-! DEFINITION. LDI (spec/41_ldi.md) and PRN (spec/42_prn.md). -/

namespace Sys2Proof.Machine

/-- LDI (R80): `x[o1] <- o2; pc <- pc + 3`. -/
def execLdi (d imm : Byte) (s : State) : Host.Outcome State Fault Refusal :=
  s.finish do
    let r ← regOperand d
    .ok ((s.setReg r (immediate imm)).advance (opWidth opcLdi))

/-- PRN (R82): `out <- out ++ [x[o1]]; pc <- pc + 2`. -/
def execPrn (src : Byte) (s : State) : Host.Outcome State Fault Refusal :=
  s.finish do
    let r ← regOperand src
    .ok ((s.emit (s.reg r)).advance (opWidth opcPrn))

end Sys2Proof.Machine
end

