-- ==== Sys2Proof/Machine/Stack.lean ====
section
/-! DEFINITION. PUSH and POP (spec/44_stack.md). The call stack is a region of memory (spec/10_state.md R18). -/

namespace Sys2Proof.Machine

/-- PUSH (R91). The register is read after the decrement, so `PUSH R7` stores the decremented stack pointer. -/
def execPush (src : Byte) (s : State) : Host.Outcome State Fault Refusal :=
  s.finish do
    let r ← regOperand src
    let t ← spDec s.sp
    let v := if r = Config.spIndex then t else s.reg r
    let m ← memWrite s.mem t.toNat v.toNat
    .ok (((s.setMem m).setSp t).advance (opWidth opcPush))

/-- POP (R92). The register is written first and then the stack pointer is incremented, so for `POP R7` the increment
applies to the popped byte and its result is what `x[7]` ends with. -/
def execPop (d : Byte) (s : State) : Host.Outcome State Fault Refusal :=
  s.finish do
    let r ← regOperand d
    let v ← memRead s.mem s.sp.toNat
    let t ← spInc (if r = Config.spIndex then v else s.sp)
    .ok (((s.setReg r v).setSp t).advance (opWidth opcPop))

end Sys2Proof.Machine
end

