-- ==== Sys2Proof/Machine/Dispatch.lean ====
section
/-! DEFINITION. Dispatch on the instruction: phases 4 to 6 of the step (spec/40_engine_cycle.md R71). -/

namespace Sys2Proof.Machine

/-- The meaning of an instruction, one arm per constructor. -/
def exec (i : Instr) (s : State) : Host.Outcome State Fault Refusal :=
  match i with
  | .ldi d imm => Sys2Proof.Machine.execLdi d imm s
  | .prn src => Sys2Proof.Machine.execPrn src s
  | .add d src => Sys2Proof.Machine.execAdd d src s
  | .sub d src => Sys2Proof.Machine.execSub d src s
  | .mul d src => Sys2Proof.Machine.execMul d src s
  | .push src => Sys2Proof.Machine.execPush src s
  | .pop d => Sys2Proof.Machine.execPop d s
  | .call target => Sys2Proof.Machine.execCall target s
  | .ret => Sys2Proof.Machine.execRet s
  | .hlt => Sys2Proof.Machine.execHlt s

end Sys2Proof.Machine
end

