-- ==== Sys2Proof/Machine/Step.lean ====
section
/-! DEFINITION. One step of the Execution Engine (spec/40_engine_cycle.md R70, R71), and the state with a chosen
instruction where the step fetches. -/

namespace Sys2Proof.Machine

/-- One step. In RUNNING: fetch and decode, then execute, or take the fault the fetch raised. HALTED and FAULTED have
no step, and the total function leaves the state unchanged (R70; spec/92_eei_decisions.md D14; log 4). -/
def step (s : State) : Host.Outcome State Fault Refusal :=
  match s.run with
  | .running =>
    match fetch s with
    | .ok i => exec i s
    | .error f => s.finish (.error f)
  | .halted => .next s
  | .faulted => .next s

/-- `s` with the instruction of an opcode-table word stored at `pc`, and running, so that the next step fetches it
(log 11). Of a state already RUNNING only memory changes. -/
def State.withFetchWord (s : State) (nbits w : Nat) : State :=
  { s with
    mem := storeBytes s.mem s.pc.toNat (tableWordBytes nbits w)
    run := .running
    fault := if s.run = .running then s.fault else none }

end Sys2Proof.Machine
end

