-- ==== Sys2Proof/Safety.lean ====
section
/-! DEFINITION. What claims are stated in: the invariant of the machine, the fates of a run, and a safe run. -/

namespace Sys2Proof.Machine

/-- The info a fault record may hold for its cause, with `MEM_SIZE = 256` (spec/60_exceptions.md R111). -/
def FaultRecord.legal (f : FaultRecord) : Prop :=
  match f.cause with
  | .unknownOpcode => 0 ≤ f.info ∧ f.info ≤ 255
  | .memBounds => f.info = 256
  | .regIndex => 8 ≤ f.info ∧ f.info ≤ 255
  | .stackBounds => f.info = 0 ∨ (0xF4 ≤ f.info ∧ f.info ≤ 0xFF)
  | .byteRange => f.info = 256
  | .aluUnsupported => False

/-- What every step keeps: memory in its canonical form, `pc` at most 256 (spec/10_state.md R16), and a fault record,
legal and naming the `pc` it left unchanged, exactly in FAULTED (R20, spec/60_exceptions.md R113). -/
structure State.Inv (s : State) : Prop where
  memory : s.mem.wf = true
  pcRange : s.pc.toNat ≤ 256
  recorded : s.run = .faulted ↔ s.fault.isSome = true
  legalRecord : ∀ f, s.fault = some f → f.legal ∧ f.pcAt = s.pc

/-- `k` steps from `s` end in `t`. -/
def runsTo (k : Nat) (s t : State) : Prop := Sys2Proof.core.run k s = .next t

/-- The run from `s` ends in HALTED (spec/40_engine_cycle.md R76). -/
def Halts (s : State) : Prop := ∃ k t, runsTo k s t ∧ t.run = .halted

/-- The run from `s` ends in FAULTED. -/
def Faults (s : State) : Prop := ∃ k t, runsTo k s t ∧ t.run = .faulted

/-- The run from `s` never ends. -/
def NeverEnds (s : State) : Prop := ∀ k, ∃ t, runsTo k s t ∧ t.run = .running

/-- A safe run: no step of it records a fault (spec/60_exceptions.md R114). -/
def SafeRun (s : State) : Prop := ∀ k t, runsTo k s t → t.fault = none

end Sys2Proof.Machine
end

