-- ==== Sys2Proof/WellFormed.lean ====
section
/-! DEFINITION. Which instructions are well formed: every operand byte used as a register index is at most 7
(spec/30_encoding.md R54). An immediate is any byte (R55). -/

namespace Sys2Proof

/-- The operand bytes an instruction uses as register indices, in the order they are checked: `o1` before `o2`
(spec/10_state.md R14, spec/40_engine_cycle.md R71 phase 4). -/
def Instr.registerOperands : Instr → List Byte
  | .ldi d _ => [d]
  | .prn src => [src]
  | .add d src => [d, src]
  | .sub d src => [d, src]
  | .mul d src => [d, src]
  | .push src => [src]
  | .pop d => [d]
  | .call target => [target]
  | .ret => []
  | .hlt => []

/-- A register operand is valid if it is at most 7 (R54). -/
def validRegister (o : Byte) : Bool := decide (o.toNat ≤ 7)

/-- Every register operand is valid. -/
def Instr.wellFormed (i : Instr) : Bool := i.registerOperands.all validRegister

end Sys2Proof
end

