-- ==== Sys2Proof/Certificates/Slice0/Obligations.lean ====
section
/-! DEFINITION. The statements for the provers, one `def Obligations.<Name> : Prop` each.
The helper predicates they share come first, each written out from the rule it follows and not from the model's own
operation. `s` is the state before, `t` the state after. -/

namespace Sys2Proof.Claims

open Sys2Proof.Machine

/-- The state in which a hardware fault has been taken (spec/60_exceptions.md R113, spec/10_state.md R20): `run` is
FAULTED, the record is (cause, `pc` at the start of the step, info), all else is as in `s`. -/
def faulted (s : State) (cause : FaultCause) (info : Int) : State :=
  { s with run := .faulted, fault := some { cause := cause, pcAt := s.pc, info := info } }

/-- The ten defined opcode bytes, in the order of the table of spec/30_encoding.md R56. Seven of them are PRESUMED
(log 1), and so is every opcode byte a statement below writes out but 0x82, 0x47 and 0x01. -/
def definedOpcodes : List Byte := [0x82, 0x47, 0xA0, 0xA1, 0xA2, 0x45, 0x46, 0x50, 0x11, 0x01]

/-- The opcode byte at `pc`. -/
def opcodeAt (s : State) : Byte := s.byteAt s.pc.toNat

/-- The bytes of memory from `pc` upward begin with `bytes`, all of them inside memory. -/
def HasCode (s : State) (bytes : List Byte) : Prop :=
  ∀ k (hk : k < bytes.length), s.pc.toNat + k < 256 ∧ s.byteAt (s.pc.toNat + k) = bytes[k]

/-- Fetch (spec/40_engine_cycle.md R71, R72): from RUNNING, with the bytes of `i` at `pc` a step is `exec i`, and with
`pc` past the end of memory a step takes MemBounds(pc). -/
def FetchedAndRun (i : Instr) : Prop :=
  ∀ s : State, s.run = .running →
    (HasCode s (encode i) → step s = exec i s) ∧
    (256 ≤ s.pc.toNat → step s = .next (faulted s .memBounds s.pc.toNat))

/-- Operand fetch (R73): from RUNNING, with the opcode byte of `i` at `pc` and an operand byte of it outside memory, a
step takes MemBounds(256). -/
def OperandFetchFaults (i : Instr) : Prop :=
  ∀ s : State, s.run = .running → s.pc.toNat < 256 → 256 < s.pc.toNat + (encode i).length →
    (encode i).head? = some (opcodeAt s) → step s = .next (faulted s .memBounds 256)

/-- Nothing but registers and `pc` differs: memory cell by cell, the output, the run state and the fault record. -/
def SameMemoryOutputStatus (s t : State) : Prop :=
  (∀ a, t.byteAt a = s.byteAt a) ∧ t.out = s.out ∧ t.run = s.run ∧ t.fault = s.fault

/-- A store of `v` at address `a` and nothing else in memory; output, run state and fault record as before. -/
def StoredOnly (s t : State) (a : Nat) (v : Byte) : Prop :=
  t.byteAt a = v ∧ (∀ b, b ≠ a → t.byteAt b = s.byteAt b) ∧ t.out = s.out ∧ t.run = s.run ∧ t.fault = s.fault

/-- The first fault condition that holds for a step from `s`, in the order of spec/60_exceptions.md R112, with the
conditions of the table of R110 and the info of R111; `none` if none holds. -/
def firstFault (s : State) : Option (FaultCause × Int) :=
  let a := s.pc.toNat
  let op := s.byteAt a
  let operands := op.toNat / 64
  let o1 := s.byteAt (a + 1)
  let o2 := s.byteAt (a + 2)
  let sp := s.reg 7
  let popped := s.byteAt sp.toNat
  if 256 ≤ a then some (.memBounds, a)
  else if op ∉ definedOpcodes then some (.unknownOpcode, op.toNat)
  else if 1 ≤ operands ∧ 256 ≤ a + 1 then some (.memBounds, (a + 1 : Nat))
  else if 2 ≤ operands ∧ 256 ≤ a + 2 then some (.memBounds, (a + 2 : Nat))
  else if op ∉ [0x11, 0x01] ∧ 7 < o1.toNat then some (.regIndex, o1.toNat)
  else if op ∈ [0xA0, 0xA1, 0xA2] ∧ 7 < o2.toNat then some (.regIndex, o2.toNat)
  else if op ∈ [0x45, 0x50] ∧ sp = 0 then some (.stackBounds, 0)
  else if op = 0x46 ∧ o1 = 7 ∧ 0xF4 ≤ popped.toNat then some (.stackBounds, popped.toNat)
  else if op = 0x46 ∧ o1 ≠ 7 ∧ 0xF4 ≤ sp.toNat then some (.stackBounds, sp.toNat)
  else if op = 0x11 ∧ 0xF4 ≤ sp.toNat then some (.stackBounds, sp.toNat)
  else if op = 0x50 ∧ 255 < a + 2 then some (.byteRange, (a + 2 : Nat))
  else none

end Sys2Proof.Claims

open Sys2Proof Sys2Proof.Machine Sys2Proof.Claims

/-! ### Encoding -/

/-- The ten encodings of the table of R56 (seven opcode values: log 1), each with operand bytes written out, decode to
the instruction they stand for, as lists of bytes and as opcode-table words. -/
def Obligations.WrittenOutWordsDecode : Prop :=
  decode [0b10000010, 3, 77] = .ok (.ldi 3 77, []) ∧
  decode [0b01000111, 7] = .ok (.prn 7, []) ∧
  decode [0b10100000, 1, 2] = .ok (.add 1 2, []) ∧
  decode [0b10100001, 2, 1] = .ok (.sub 2 1, []) ∧
  decode [0b10100010, 4, 5] = .ok (.mul 4 5, []) ∧
  decode [0b01000101, 6] = .ok (.push 6, []) ∧
  decode [0b01000110, 5] = .ok (.pop 5, []) ∧
  decode [0b01010000, 1, 0x11] = .ok (.call 1, [0x11]) ∧
  decode [0b00010001] = .ok (.ret, []) ∧
  decode [0b00000001, 0x82] = .ok (.hlt, [0x82]) ∧
  decodeTableWord 24 0x4D0382 = some (.ldi 3 77) ∧ decodeTableWord 16 0x0650 = some (.call 6)

/-- Decoding an encoding gives the instruction back with every operand byte at every value, and the rest of the bytes;
in particular for every well-formed instruction. -/
def Obligations.DecodeOfEncodeIsIdentity : Prop :=
  ∀ (i : Instr) (rest : List Byte), decode (encode i ++ rest) = .ok (i, rest)

/-- The other direction: bytes that decode to an instruction are its encoding followed by the rest. -/
def Obligations.DecodedBytesAreTheEncoding : Prop :=
  ∀ (bytes : List Byte) (i : Instr) (rest : List Byte), decode bytes = .ok (i, rest) → bytes = encode i ++ rest

/-- R60, with the presumed values of log 1: the decoder of an opcode byte, kind and width, with `unknown` for every other
byte. -/
def Obligations.OpcodeDecoderIsTheTenRowMap : Prop :=
  ∀ op : Byte,
    ((decodeOpcode op).map fun k => (k, opWidth op)) =
      (if op = 0x82 then some (.ldi, 3)
      else if op = 0x47 then some (.prn, 2)
      else if op = 0xA0 then some (.add, 3)
      else if op = 0xA1 then some (.sub, 3)
      else if op = 0xA2 then some (.mul, 3)
      else if op = 0x45 then some (.push, 2)
      else if op = 0x46 then some (.pop, 2)
      else if op = 0x50 then some (.call, 2)
      else if op = 0x11 then some (.ret, 1)
      else if op = 0x01 then some (.hlt, 1)
      else none) ∧
    opWidth op = op.toNat / 64 + 1

/-! ### The step -/

/-- When the bytes at the program counter decode to an instruction (well formed or not), a step from RUNNING is `exec`
of it at that state: nothing is added around `exec`. -/
def Obligations.StepRunsDecodedInstruction : Prop :=
  ∀ (s : State) (i : Instr) (rest : List Byte),
    s.run = .running → decode s.codeBytes = .ok (i, rest) → step s = exec i s

/-- R101, R59: an opcode byte that is none of the ten is rejected by name by the decoder, and a step on it takes
UnknownOpcode with the byte, wherever in memory it stands and whatever follows it (which bytes these are: log 1). -/
def Obligations.UnknownByteFaultsAtOnce : Prop :=
  (∀ (op : Byte) (rest : List Byte), op ∉ definedOpcodes → decode (op :: rest) = .error (.unknownOpcode op)) ∧
  ∀ s : State, s.run = .running → s.pc.toNat < 256 → opcodeAt s ∉ definedOpcodes →
    step s = .next (faulted s .unknownOpcode (opcodeAt s).toNat)

/-- R73: after a recognised opcode, exactly the operand bytes of its width are read, and they are read inside memory or
the fetch reports MemBounds(256). -/
def Obligations.OperandFetchReadsOwnedBytesOnly : Prop :=
  ∀ (s : State) (k : OpKind), s.pc.toNat < 256 → decodeOpcode (opcodeAt s) = some k →
    (s.pc.toNat + ((opcodeAt s).toNat / 64 + 1) ≤ 256 →
      ∃ i, fetch s = .ok i ∧ i.kind = k ∧ HasCode s (encode i) ∧ (encode i).length = (opcodeAt s).toNat / 64 + 1) ∧
    (256 < s.pc.toNat + ((opcodeAt s).toNat / 64 + 1) → fetch s = .error ⟨.memBounds, 256⟩)

/-- R70: HALTED and FAULTED keep all state for ever; as a total function a step there answers the state unchanged (log
4), and so does a run of any length. -/
def Obligations.TerminalStatesKeepAllState : Prop :=
  ∀ s : State, s.run ≠ .running → ∀ k, runsTo k s s

/-- Every state has exactly one outcome, and it is a next state: the model stops nowhere by a fault or a refusal of its
own. That a hardware fault is a next state is the model's choice (log 3), and so is the next state of HALTED and FAULTED,
where R70 says no step exists (log 4, D14). -/
def Obligations.EveryStepAnswersNext : Prop :=
  ∀ s : State, ∃ t, step s = .next t

/-- R112 with the conditions of R110 and the info of R111: from RUNNING, a step takes the first fault of the list, and
if no condition of the list holds it completes and faults not (opcode values: log 1). -/
def Obligations.StepFaultsByThePriorityList : Prop :=
  ∀ s : State, s.run = .running →
    match firstFault s with
    | some (cause, info) => step s = .next (faulted s cause info)
    | none => ∃ t, step s = .next t ∧ t.run ≠ .faulted ∧ t.fault = s.fault

/-- R113: a step that takes a fault changes the run state and the fault record and nothing else. -/
def Obligations.TakingAFaultIsPrecise : Prop :=
  ∀ s t : State, s.run = .running → step s = .next t → t.run = .faulted →
    (∀ q, t.reg q = s.reg q) ∧ t.pc = s.pc ∧ (∀ a, t.byteAt a = s.byteAt a) ∧ t.mem = s.mem ∧ t.out = s.out ∧
    ∃ cause info, t.fault = some { cause := cause, pcAt := s.pc, info := info }

/-! ### Reset, load and runs -/

/-- R23: every piece of state right after reset; and reset applied to any state gives that state. -/
def Obligations.ResetLeavesTheStatedValues : Prop :=
  (∀ a, State.reset.byteAt a = 0) ∧
  (∀ q : RegIx, q ≠ 7 → State.reset.reg q = 0) ∧ State.reset.reg 7 = 0xF4 ∧
  State.reset.pc = 0 ∧ State.reset.run = .running ∧ State.reset.fault = none ∧ State.reset.out = [] ∧
  ∀ s, hostReset s = State.reset

/-- The invariant holds at reset. -/
def Obligations.ResetMeetsTheInvariant : Prop := State.reset.Inv

/-- The invariant is kept by every step, from every state that meets it (in HALTED and FAULTED by log 4). -/
def Obligations.EveryStepKeepsTheInvariant : Prop :=
  ∀ s t : State, s.Inv → step s = .next t → t.Inv

/-- The load port, R44: an image of at most 256 bytes is stored from address 0 with every other cell as before (0 after
reset) and nothing else changed, in canonical form; a longer one is refused. -/
def Obligations.LoadPortStoresTheImage : Prop :=
  ∀ image : List Byte,
    (image.length ≤ 256 →
      ∃ s, boot image = .next s ∧ (∀ a (h : a < image.length), s.byteAt a = image[a]) ∧
        (∀ a, image.length ≤ a → s.byteAt a = 0) ∧ s.mem.wf = true ∧
        (∀ q, s.reg q = State.reset.reg q) ∧ s.pc = 0 ∧ s.run = .running ∧ s.fault = none ∧ s.out = []) ∧
    (256 < image.length → boot image = .refused .imageTooLong)

/-- Every state a run from a loaded image reaches meets the invariant: in particular a recorded fault is one of the five
causes that can be raised, with the info R111 gives it. -/
def Obligations.BootedRunsMeetTheInvariant : Prop :=
  ∀ (image : List Byte) (k : Nat) (s t : State), boot image = .next s → runsTo k s t → t.Inv

/-- R76: the run from any state has one of three fates, and only one; that HALTED and FAULTED last in a longer run is
log 4. -/
def Obligations.RunHasExactlyOneFate : Prop :=
  ∀ s : State, (Halts s ∨ Faults s ∨ NeverEnds s) ∧ ¬(Halts s ∧ Faults s) ∧ ¬(Halts s ∧ NeverEnds s) ∧
    ¬(Faults s ∧ NeverEnds s)

/-- R114: from a state with no fault recorded that meets the invariant, a run is safe exactly when it does not end in
FAULTED. -/
def Obligations.SafeRunIsOneThatNeverFaults : Prop :=
  ∀ s : State, s.Inv → s.fault = none → (SafeRun s ↔ ¬Faults s)

/-! ### Memory -/

/-- R31: the checked read at any mathematical integer. -/
def Obligations.CheckedReadFaultsOutsideMemory : Prop :=
  ∀ (m : Memory) (a : Int),
    (0 ≤ a → a < 256 → memRead m a = .ok (m.read a.toNat)) ∧
    (a < 0 ∨ 256 ≤ a → memRead m a = .error ⟨.memBounds, a⟩)

/-- R32: the checked write at any mathematical integer, the address check before the value check; the byte is stored and
every other cell is as before. -/
def Obligations.CheckedWriteFaultsOrStores : Prop :=
  ∀ (m : Memory) (a : Int) (v : Nat),
    (a < 0 ∨ 256 ≤ a → memWrite m a v = .error ⟨.memBounds, a⟩) ∧
    (0 ≤ a → a < 256 → 255 < v → memWrite m a v = .error ⟨.byteRange, v⟩) ∧
    (0 ≤ a → a < 256 → v ≤ 255 → m.wf = true →
      ∃ m', memWrite m a v = .ok m' ∧ m'.wf = true ∧ (m'.read a.toNat).toNat = v ∧
        ∀ b, b ≠ a.toNat → m'.read b = m.read b)

/-- Memories in canonical form that read the same everywhere are the same data, so equality of states is equality of
what software can see. -/
def Obligations.CanonicalMemoriesReadingAlikeAreEqual : Prop :=
  ∀ m m' : Memory, m.wf = true → m'.wf = true → (∀ a, m.read a = m'.read a) → m = m'

/-! ### The instructions, each with its encoding, its fetch, where it completes and what it changes, and where it
faults -/

/-- R80. -/
def Obligations.LdiLoadsTheImmediate : Prop :=
  ∀ d imm : Byte,
    encode (.ldi d imm) = [0x82, d, imm] ∧ FetchedAndRun (.ldi d imm) ∧ OperandFetchFaults (.ldi d imm) ∧
    ∀ s : State,
      (∀ r : RegIx, d.toNat = r.val →
        ∃ t, exec (.ldi d imm) s = .next t ∧ (∀ q, t.reg q = if q = r then imm else s.reg q) ∧
          t.pc = s.pc + 3 ∧ SameMemoryOutputStatus s t) ∧
      (7 < d.toNat → exec (.ldi d imm) s = .next (faulted s .regIndex d.toNat))

/-- R82. -/
def Obligations.PrnAppendsTheRegister : Prop :=
  ∀ src : Byte,
    encode (.prn src) = [0x47, src] ∧ FetchedAndRun (.prn src) ∧ OperandFetchFaults (.prn src) ∧
    ∀ s : State,
      (∀ r : RegIx, src.toNat = r.val →
        ∃ t, exec (.prn src) s = .next t ∧ t.out = s.out ++ [s.reg r] ∧ t.pc = s.pc + 2 ∧
          (∀ q, t.reg q = s.reg q) ∧ (∀ a, t.byteAt a = s.byteAt a) ∧ t.run = s.run ∧ t.fault = s.fault) ∧
      (7 < src.toNat → exec (.prn src) s = .next (faulted s .regIndex src.toNat))

/-- R84; opcode value: log 1. -/
def Obligations.AddWritesTheSumModulo256 : Prop :=
  ∀ d src : Byte,
    encode (.add d src) = [0xA0, d, src] ∧ FetchedAndRun (.add d src) ∧ OperandFetchFaults (.add d src) ∧
    ∀ s : State,
      (∀ rd rs : RegIx, d.toNat = rd.val → src.toNat = rs.val →
        ∃ t, exec (.add d src) s = .next t ∧
          (t.reg rd).toNat = ((s.reg rd).toNat + (s.reg rs).toNat) % 256 ∧
          (∀ q, q ≠ rd → t.reg q = s.reg q) ∧ t.pc = s.pc + 3 ∧ SameMemoryOutputStatus s t) ∧
      (7 < d.toNat → exec (.add d src) s = .next (faulted s .regIndex d.toNat)) ∧
      (d.toNat ≤ 7 → 7 < src.toNat → exec (.add d src) s = .next (faulted s .regIndex src.toNat))

/-- R85: the destination is the left operand; opcode value: log 1. -/
def Obligations.SubWritesTheDifferenceModulo256 : Prop :=
  ∀ d src : Byte,
    encode (.sub d src) = [0xA1, d, src] ∧ FetchedAndRun (.sub d src) ∧ OperandFetchFaults (.sub d src) ∧
    ∀ s : State,
      (∀ rd rs : RegIx, d.toNat = rd.val → src.toNat = rs.val →
        ∃ t, exec (.sub d src) s = .next t ∧
          ((s.reg rs).toNat ≤ (s.reg rd).toNat → (t.reg rd).toNat = (s.reg rd).toNat - (s.reg rs).toNat) ∧
          ((s.reg rd).toNat < (s.reg rs).toNat → (t.reg rd).toNat = (s.reg rd).toNat + 256 - (s.reg rs).toNat) ∧
          (∀ q, q ≠ rd → t.reg q = s.reg q) ∧ t.pc = s.pc + 3 ∧ SameMemoryOutputStatus s t) ∧
      (7 < d.toNat → exec (.sub d src) s = .next (faulted s .regIndex d.toNat)) ∧
      (d.toNat ≤ 7 → 7 < src.toNat → exec (.sub d src) s = .next (faulted s .regIndex src.toNat))

/-- R86: the low 8 bits of the product; opcode value: log 1. -/
def Obligations.MulWritesTheProductModulo256 : Prop :=
  ∀ d src : Byte,
    encode (.mul d src) = [0xA2, d, src] ∧ FetchedAndRun (.mul d src) ∧ OperandFetchFaults (.mul d src) ∧
    ∀ s : State,
      (∀ rd rs : RegIx, d.toNat = rd.val → src.toNat = rs.val →
        ∃ t, exec (.mul d src) s = .next t ∧
          (t.reg rd).toNat = ((s.reg rd).toNat * (s.reg rs).toNat) % 256 ∧
          (∀ q, q ≠ rd → t.reg q = s.reg q) ∧ t.pc = s.pc + 3 ∧ SameMemoryOutputStatus s t) ∧
      (7 < d.toNat → exec (.mul d src) s = .next (faulted s .regIndex d.toNat)) ∧
      (d.toNat ≤ 7 → 7 < src.toNat → exec (.mul d src) s = .next (faulted s .regIndex src.toNat))

/-- R83, last part: the same result bits are right whether the operands are read as unsigned or as two's complement. -/
def Obligations.AluResultHasNoSignedness : Prop :=
  ∀ a b : Byte,
    (aluResult .add a b).toInt = (a.toInt + b.toInt).bmod 256 ∧
    (aluResult .sub a b).toInt = (a.toInt - b.toInt).bmod 256 ∧
    (aluResult .mul a b).toInt = (a.toInt * b.toInt).bmod 256

/-- R90: the two moves of the stack pointer and their limits. -/
def Obligations.StackPointerMovesInsideItsLimits : Prop :=
  ∀ sp : Byte,
    (sp.toNat = 0 → spDec sp = .error ⟨.stackBounds, 0⟩) ∧
    (1 ≤ sp.toNat → ∃ t, spDec sp = .ok t ∧ t.toNat = sp.toNat - 1) ∧
    (sp.toNat < 0xF4 → ∃ t, spInc sp = .ok t ∧ t.toNat = sp.toNat + 1) ∧
    (0xF4 ≤ sp.toNat → spInc sp = .error ⟨.stackBounds, sp.toNat⟩)

/-- R91 (opcode value: log 1): the address stored to is the one SpDec gives, and for `PUSH R7` the value stored is
that address. -/
def Obligations.PushStoresBelowTheStackPointer : Prop :=
  ∀ src : Byte,
    encode (.push src) = [0x45, src] ∧ FetchedAndRun (.push src) ∧ OperandFetchFaults (.push src) ∧
    ∀ s : State,
      (∀ (r : RegIx) (a : Byte), src.toNat = r.val → spDec (s.reg 7) = .ok a → s.mem.wf = true →
        ∃ t, exec (.push src) s = .next t ∧ a.toNat + 1 = (s.reg 7).toNat ∧
          StoredOnly s t a.toNat (if r = 7 then a else s.reg r) ∧
          (∀ q, t.reg q = if q = 7 then a else s.reg q) ∧ t.pc = s.pc + 2) ∧
      (src.toNat ≤ 7 → s.reg 7 = 0 → exec (.push src) s = .next (faulted s .stackBounds 0)) ∧
      (7 < src.toNat → exec (.push src) s = .next (faulted s .regIndex src.toNat))

/-- R92 (opcode value: log 1): the byte at the stack pointer goes to the register, the increment applies to the popped
byte for `POP R7` and to the stack pointer otherwise, and the increment's result is what `x[7]` holds. -/
def Obligations.PopLoadsFromTheStackPointer : Prop :=
  ∀ d : Byte,
    encode (.pop d) = [0x46, d] ∧ FetchedAndRun (.pop d) ∧ OperandFetchFaults (.pop d) ∧
    ∀ s : State,
      (∀ r : RegIx, d.toNat = r.val → r ≠ 7 → (s.reg 7).toNat < 0xF4 →
        ∃ t, exec (.pop d) s = .next t ∧ t.reg r = s.byteAt (s.reg 7).toNat ∧
          (t.reg 7).toNat = (s.reg 7).toNat + 1 ∧ (∀ q, q ≠ r → q ≠ 7 → t.reg q = s.reg q) ∧
          t.pc = s.pc + 2 ∧ SameMemoryOutputStatus s t) ∧
      (d = 7 → (s.byteAt (s.reg 7).toNat).toNat < 0xF4 →
        ∃ t, exec (.pop d) s = .next t ∧ (t.reg 7).toNat = (s.byteAt (s.reg 7).toNat).toNat + 1 ∧
          (∀ q, q ≠ 7 → t.reg q = s.reg q) ∧ t.pc = s.pc + 2 ∧ SameMemoryOutputStatus s t) ∧
      (d.toNat < 7 → 0xF4 ≤ (s.reg 7).toNat →
        exec (.pop d) s = .next (faulted s .stackBounds (s.reg 7).toNat)) ∧
      (d = 7 → 0xF4 ≤ (s.byteAt (s.reg 7).toNat).toNat →
        exec (.pop d) s = .next (faulted s .stackBounds (s.byteAt (s.reg 7).toNat).toNat)) ∧
      (7 < d.toNat → exec (.pop d) s = .next (faulted s .regIndex d.toNat))

/-- R95 (opcode value: log 1): the return address `pc + 2` is stored at the address SpDec gives, and `pc` becomes the
register's value, for `CALL R7` the decremented stack pointer. -/
def Obligations.CallStoresTheReturnAddressAndJumps : Prop :=
  ∀ target : Byte,
    encode (.call target) = [0x50, target] ∧ FetchedAndRun (.call target) ∧ OperandFetchFaults (.call target) ∧
    ∀ s : State,
      (∀ (r : RegIx) (a : Byte), target.toNat = r.val → spDec (s.reg 7) = .ok a → s.pc.toNat + 2 ≤ 255 →
        s.mem.wf = true →
        ∃ t, exec (.call target) s = .next t ∧ a.toNat + 1 = (s.reg 7).toNat ∧
          StoredOnly s t a.toNat (BitVec.ofNat 8 (s.pc.toNat + 2)) ∧
          (∀ q, t.reg q = if q = 7 then a else s.reg q) ∧
          t.pc.toNat = (if r = 7 then a else s.reg r).toNat) ∧
      (target.toNat ≤ 7 → 1 ≤ (s.reg 7).toNat → 255 < s.pc.toNat + 2 →
        exec (.call target) s = .next (faulted s .byteRange (s.pc.toNat + 2 : Nat))) ∧
      (target.toNat ≤ 7 → s.reg 7 = 0 → exec (.call target) s = .next (faulted s .stackBounds 0)) ∧
      (7 < target.toNat → exec (.call target) s = .next (faulted s .regIndex target.toNat))

/-- R96; opcode value: log 1. -/
def Obligations.RetJumpsToThePoppedByte : Prop :=
  encode .ret = [0x11] ∧ FetchedAndRun .ret ∧
  ∀ s : State,
    ((s.reg 7).toNat < 0xF4 →
      ∃ t, exec .ret s = .next t ∧ t.pc.toNat = (s.byteAt (s.reg 7).toNat).toNat ∧
        (t.reg 7).toNat = (s.reg 7).toNat + 1 ∧ (∀ q, q ≠ 7 → t.reg q = s.reg q) ∧ SameMemoryOutputStatus s t) ∧
    (0xF4 ≤ (s.reg 7).toNat → exec .ret s = .next (faulted s .stackBounds (s.reg 7).toNat))

/-- R100: HLT changes the run state and nothing else, `pc` included. That a step from HALTED answers the state unchanged
is the model's choice (log 4, D14): R70 says that no step exists there. -/
def Obligations.HltHaltsAndKeepsThePc : Prop :=
  encode .hlt = [0x01] ∧ FetchedAndRun .hlt ∧
  ∀ s : State, ∃ t, exec .hlt s = .next t ∧ t.run = .halted ∧ t.pc = s.pc ∧ (∀ q, t.reg q = s.reg q) ∧
    (∀ a, t.byteAt a = s.byteAt a) ∧ t.out = s.out ∧ t.fault = s.fault ∧ step t = .next t

/-- R54: an instruction with a register operand above 7 takes RegIndex with the first such operand, whatever the state
(so before any fault or effect of its own); and the immediate of LDI is no register operand. -/
def Obligations.IllFormedInstructionTakesRegIndex : Prop :=
  (∀ (i : Instr) (o : Byte) (s : State), i.registerOperands.find? (fun b => decide (7 < b.toNat)) = some o →
    exec i s = .next (faulted s .regIndex o.toNat)) ∧
  (∀ i : Instr, i.wellFormed = false → ∃ o, i.registerOperands.find? (fun b => decide (7 < b.toNat)) = some o) ∧
  ∀ d imm : Byte, d.toNat ≤ 7 → (Instr.ldi d imm).wellFormed = true

/-! ### Whole-machine rules, over every instruction -/

/-- R14 and R13 (opcode values: log 1): a step changes the register its instruction names as destination (LDI, ADD,
SUB, MUL, POP) and, by PUSH, POP, CALL or RET, the stack pointer; every other register of every step is as before. -/
def Obligations.RegistersChangeOnlyWhereNamed : Prop :=
  ∀ (s t : State) (q : RegIx), step s = .next t → t.reg q ≠ s.reg q →
    (opcodeAt s ∈ ([0x82, 0xA0, 0xA1, 0xA2, 0x46] : List Byte) ∧ (s.byteAt (s.pc.toNat + 1)).toNat = q.val) ∨
    (opcodeAt s ∈ ([0x45, 0x46, 0x50, 0x11] : List Byte) ∧ q = 7)

/-- R21: the output changes only by PRN, which appends one value, that of its register. -/
def Obligations.OutputChangesOnlyByPrn : Prop :=
  ∀ s t : State, step s = .next t →
    t.out = s.out ∨
    (opcodeAt s = 0x47 ∧ ∃ r : RegIx, (s.byteAt (s.pc.toNat + 1)).toNat = r.val ∧ t.out = s.out ++ [s.reg r])

/-- R35 (opcode values: log 1): memory changes only by PUSH and CALL, and only at the address one below the stack
pointer. -/
def Obligations.MemoryChangesOnlyByPushAndCall : Prop :=
  ∀ (s t : State) (a : Nat), s.mem.wf = true → step s = .next t → t.byteAt a ≠ s.byteAt a →
    (opcodeAt s = 0x45 ∨ opcodeAt s = 0x50) ∧ a + 1 = (s.reg 7).toNat

/-- R16 and R74 (opcode values: log 1): from RUNNING, a step that does not fault advances `pc` by the width without
wrap, to at most 256, unless it is CALL or RET, which leave `pc` at most 255, or HLT, which keeps it. -/
def Obligations.PcIsWrittenInThreeWays : Prop :=
  ∀ s t : State, s.run = .running → step s = .next t → t.run ≠ .faulted →
    (opcodeAt s ∉ ([0x50, 0x11, 0x01] : List Byte) →
      t.pc.toNat = s.pc.toNat + ((opcodeAt s).toNat / 64 + 1) ∧ t.pc.toNat ≤ 256) ∧
    (opcodeAt s = 0x50 ∨ opcodeAt s = 0x11 → t.pc.toNat ≤ 255) ∧
    (opcodeAt s = 0x01 → t.pc = s.pc)

/-- R115 and the corner case of R100: a run enters HALTED only by HLT, with no fault recorded if none was. -/
def Obligations.OnlyHltEntersHalted : Prop :=
  ∀ s t : State, s.run = .running → step s = .next t → t.run = .halted →
    opcodeAt s = 0x01 ∧ t = { s with run := .halted }

/-- R77: no step records AluUnsupported. -/
def Obligations.NoStepRaisesAluUnsupported : Prop :=
  ∀ (s t : State) (f : FaultRecord), step s = .next t → t.fault = some f → s.fault ≠ some f →
    f.cause ≠ .aluUnsupported

/-- The consequence R90 draws: the stack instructions move the stack pointer by one down, or leave it at most 0xF4. -/
def Obligations.StackInstructionsRespectTheLimits : Prop :=
  ∀ (s t : State) (i : Instr), i.kind ∈ ([.push, .pop, .call, .ret] : List OpKind) → exec i s = .next t →
    (t.reg 7).toNat ≤ 0xF4 ∨ (t.reg 7).toNat ≤ (s.reg 7).toNat

/-- R20 and R21: no instruction reads the output stream or the fault record. A step from RUNNING with another output and
another record does the same to everything else, appends the same values, and leaves the other record where it took no
fault. -/
def Obligations.OutputAndRecordAreNeverRead : Prop :=
  ∀ s t : State, s.run = .running → step s = .next t →
    ∃ emitted, t.out = s.out ++ emitted ∧
      ∀ (out : List Byte) (record : Option FaultRecord),
        step { s with out := out, fault := record } =
          .next { t with out := out ++ emitted, fault := if t.run = .faulted then t.fault else record }

/-! ### Pairs of instructions -/

/-- The stack round trip of R92: `PUSH r` then `POP r'` with neither 7 copies the register and restores the stack
pointer. -/
def Obligations.PushThenPopCopiesTheRegister : Prop :=
  ∀ (s : State) (a b : Byte) (r r' : RegIx), a.toNat = r.val → b.toNat = r'.val → r ≠ 7 → r' ≠ 7 → s.mem.wf = true →
    1 ≤ (s.reg 7).toNat → (s.reg 7).toNat ≤ 0xF4 →
    ∃ t u, exec (.push a) s = .next t ∧ exec (.pop b) t = .next u ∧ u.reg r' = s.reg r ∧ u.reg 7 = s.reg 7

/-- The call and return round trip of R96: a RET executed with the stack pointer as just after the CALL, and the cell it
points to not overwritten in between, resumes at the call's address plus 2 with the stack pointer restored. -/
def Obligations.RetResumesAfterTheCall : Prop :=
  ∀ (s t u : State) (a : Byte) (r : RegIx), a.toNat = r.val → s.mem.wf = true → s.pc.toNat ≤ 253 →
    1 ≤ (s.reg 7).toNat → (s.reg 7).toNat ≤ 0xF4 → exec (.call a) s = .next t →
    u.reg 7 = t.reg 7 → u.byteAt (t.reg 7).toNat = t.byteAt (t.reg 7).toNat →
    ∃ v, exec .ret u = .next v ∧ v.pc.toNat = s.pc.toNat + 2 ∧ v.reg 7 = s.reg 7

/-- The jump idiom of R96: `PUSH Rs` then `RET` jumps to the address in the register with every register unchanged. -/
def Obligations.PushThenRetJumps : Prop :=
  ∀ (s : State) (a : Byte) (r : RegIx), a.toNat = r.val → r ≠ 7 → s.mem.wf = true →
    1 ≤ (s.reg 7).toNat → (s.reg 7).toNat ≤ 0xF4 →
    ∃ t u, exec (.push a) s = .next t ∧ exec .ret t = .next u ∧ u.pc.toNat = (s.reg r).toNat ∧
      ∀ q, u.reg q = s.reg q

/-- R41: a byte stored by PUSH is what a later fetch at its address reads, as an opcode or an operand byte, with nothing
in between. -/
def Obligations.StoredByteIsSeenByFetch : Prop :=
  ∀ (s t : State) (src a : Byte) (r : RegIx), src.toNat = r.val → spDec (s.reg 7) = .ok a → s.mem.wf = true →
    exec (.push src) s = .next t →
    ∀ (u : State) (k : Nat), u.mem = t.mem → u.pc.toNat + k = a.toNat →
      fetchByte u k = .ok (if r = 7 then a else s.reg r)

/-! ### The host -/

/-- R44, R132: once a step has been taken, from whatever state and in RUNNING, HALTED or FAULTED, the load port refuses
every image; and after a load it refuses a second one, unless the first held zeros only and so left the reset state
itself (log 9). -/
def Obligations.LoadPortClosesAtTheFirstStep : Prop :=
  (∀ (s t : State) (k : Nat) (image : List Byte), runsTo (k + 1) s t →
    loadPort image t = .refused .loadPortClosed) ∧
  ∀ (image second : List Byte) (s : State), boot image = .next s → (∃ b ∈ image, b ≠ 0) →
    loadPort second s = .refused .loadPortClosed

/-- R132 and R44: while the core is RUNNING the host reads `run`, the fault record and the output and nothing that
depends on other state; after a terminal state it reads all state. -/
def Obligations.HostReadsAllStateOnlyAfterTheRun : Prop :=
  ∀ s t : State,
    (hostRead s).run = s.run ∧ (hostRead s).fault = s.fault ∧ (hostRead s).out = s.out ∧
    (s.run = .running → t.run = .running → t.fault = s.fault → t.out = s.out → hostRead t = hostRead s) ∧
    (s.run ≠ .running → hostRead t = hostRead s → t = s)
end

