-- ==== Sys2Proof/Laws/Boot.lean ====
section
/-! SUPPORT. What the load port and the host's read can do, said once. -/

namespace Sys2Proof.Machine

theorem loadPort_reset (image : List Byte) :
    loadPort image State.reset =
      if image.length ≤ 256 then .next (State.reset.setMem (storeBytes [] 0 image)) else .refused .imageTooLong :=
  if_neg (not_not.2 rfl)

theorem loadPort_closed {s : State} (image : List Byte) (h : s ≠ State.reset) :
    loadPort image s = .refused .loadPortClosed := if_pos h

@[simp] theorem hostRead_run (s : State) : (hostRead s).run = s.run := rfl
@[simp] theorem hostRead_fault (s : State) : (hostRead s).fault = s.fault := rfl
@[simp] theorem hostRead_out (s : State) : (hostRead s).out = s.out := rfl

theorem hostRead_rest_running {s : State} (h : s.run = .running) : (hostRead s).rest = none := if_pos h

theorem hostRead_rest_terminal {s : State} (h : s.run ≠ .running) :
    (hostRead s).rest = some (s.regs, s.pc, s.mem) := if_neg h

end Sys2Proof.Machine
end

