-- ==== Sys2Proof/Laws/Decode.lean ====
section
/-! SUPPORT. What the decoder does with an opcode byte and with the operand bytes, and the width law. -/

namespace Sys2Proof

/-- The ten opcode values are pairwise distinct, so the table lookup inverts `OpKind.opcode`. -/
theorem decodeOpcode_opcode (k : OpKind) : decodeOpcode k.opcode = some k := by
  cases k <;> rfl

theorem decodeOpcode_eq_some {op : Byte} {k : OpKind} : decodeOpcode op = some k ↔ op = k.opcode := by
  constructor
  · intro h
    have := List.find?_some h
    simpa using (beq_iff_eq.1 this).symm
  · rintro rfl
    exact decodeOpcode_opcode k

/-- A byte is unknown exactly when it is the opcode byte of no kind. -/
theorem decodeOpcode_eq_none {op : Byte} : decodeOpcode op = none ↔ ∀ k : OpKind, op ≠ k.opcode := by
  constructor
  · rintro h k rfl
    simp [decodeOpcode_opcode] at h
  · intro h
    cases hk : decodeOpcode op with
    | none => rfl
    | some k => exact absurd (decodeOpcode_eq_some.1 hk) (h k)

/-- The width formula on naturals. -/
theorem opWidth_eq (op : Byte) : opWidth op = op.toNat / 64 + 1 := by
  simp [opWidth, operandCount, Nat.shiftRight_eq_div_pow]

/-- The widths of the ten opcode values. -/
theorem opWidth_opcode (k : OpKind) : opWidth k.opcode =
    match k with
    | .ldi | .add | .sub | .mul => 3
    | .prn | .push | .pop | .call => 2
    | .ret | .hlt => 1 := by
  cases k <;> rfl

theorem opWidth_opcode_pos (k : OpKind) : 1 ≤ opWidth k.opcode ∧ opWidth k.opcode ≤ 3 := by
  cases k <;> decide

@[simp] theorem OpKind.kind_instr (k : OpKind) (o1 o2 : Byte) : (k.instr o1 o2).kind = k := by
  cases k <;> rfl

/-- Every instruction is the instruction of its kind with its operand bytes. -/
theorem Instr.eq_instr (i : Instr) : ∃ o1 o2, i = i.kind.instr o1 o2 := by
  cases i
  case ldi d imm => exact ⟨d, imm, rfl⟩
  case prn a => exact ⟨a, 0, rfl⟩
  case add a b => exact ⟨a, b, rfl⟩
  case sub a b => exact ⟨a, b, rfl⟩
  case mul a b => exact ⟨a, b, rfl⟩
  case push a => exact ⟨a, 0, rfl⟩
  case pop a => exact ⟨a, 0, rfl⟩
  case call a => exact ⟨a, 0, rfl⟩
  case ret => exact ⟨0, 0, rfl⟩
  case hlt => exact ⟨0, 0, rfl⟩

/-- Everything the decoder can do, over any way of reading bytes. -/
theorem decodeFrom_eq {ε : Type} (read : Nat → Except ε Byte) (unknown : Byte → ε) :
    decodeFrom read unknown =
      match read 0 with
      | .error e => .error e
      | .ok op =>
        match decodeOpcode op with
        | none => .error (unknown op)
        | some k =>
          match readOwned read 1 (decide (2 ≤ opWidth op)) with
          | .error e => .error e
          | .ok o1 =>
            match readOwned read 2 (decide (opWidth op = 3)) with
            | .error e => .error e
            | .ok o2 => .ok (k.instr o1 o2) := by
  unfold decodeFrom
  cases read 0 with
  | error e => rfl
  | ok op =>
    simp only [bind, Except.bind]
    cases decodeOpcode op with
    | none => rfl
    | some k =>
      cases readOwned read 1 (decide (2 ≤ opWidth op)) with
      | error e => rfl
      | ok o1 => cases readOwned read 2 (decide (opWidth op = 3)) <;> rfl

/-- The encoding of a kind's instruction: the opcode byte and as many operand bytes as its width says. -/
theorem encode_instr (k : OpKind) (o1 o2 : Byte) :
    encode (k.instr o1 o2) = [k.opcode, o1, o2].take (opWidth k.opcode) := by
  rw [opWidth_opcode]
  cases k <;> rfl

theorem length_encode_instr (k : OpKind) (o1 o2 : Byte) :
    (encode (k.instr o1 o2)).length = opWidth k.opcode := by
  rw [opWidth_opcode]
  cases k <;> rfl

/-- A kind's instruction does not depend on an operand byte its width does not own. -/
theorem instr_congr (k : OpKind) {o1 o2 p1 p2 : Byte} (h1 : 2 ≤ opWidth k.opcode → o1 = p1)
    (h2 : opWidth k.opcode = 3 → o2 = p2) : k.instr o1 o2 = k.instr p1 p2 := by
  rw [opWidth_opcode] at h1 h2
  cases k <;> simp_all [OpKind.instr]

/-- If every byte of an instruction's encoding is read where it stands, the decoder gives that instruction. -/
theorem decodeFrom_encode {ε : Type} {read : Nat → Except ε Byte} {unknown : Byte → ε} {i : Instr}
    (h : ∀ k (hk : k < (encode i).length), read k = .ok ((encode i)[k])) : decodeFrom read unknown = .ok i := by
  obtain ⟨o1, o2, hi⟩ := i.eq_instr
  generalize i.kind = kd at hi
  subst hi
  have hlen := length_encode_instr kd o1 o2
  have hpos := opWidth_opcode_pos kd
  have h0 : read 0 = .ok kd.opcode := by
    rw [h 0 (by omega)]
    simp only [encode_instr, List.getElem_take, List.getElem_cons_zero]
  have h1 : 2 ≤ opWidth kd.opcode → read 1 = .ok o1 := fun hw => by
    rw [h 1 (by omega)]
    simp only [encode_instr, List.getElem_take, List.getElem_cons_succ, List.getElem_cons_zero]
  have h2 : opWidth kd.opcode = 3 → read 2 = .ok o2 := fun hw => by
    rw [h 2 (by omega)]
    simp only [encode_instr, List.getElem_take, List.getElem_cons_succ, List.getElem_cons_zero]
  rw [decodeFrom_eq, h0]
  simp only [decodeOpcode_opcode]
  by_cases hw2 : 2 ≤ opWidth kd.opcode <;> by_cases hw3 : opWidth kd.opcode = 3
  · simp [readOwned, hw3, h1 hw2, h2 hw3]
  · simp only [readOwned, hw2, hw3, h1 hw2, decide_true, decide_false, if_true]
    exact congrArg _ (instr_congr kd (fun _ => rfl) (fun h => absurd h hw3))
  · omega
  · simp only [readOwned, hw2, hw3, decide_false]
    exact congrArg _ (instr_congr kd (fun h => absurd h hw2) (fun h => absurd h hw3))

/-- The converse: an instruction the decoder gives is one whose encoding is what was read. -/
theorem read_of_decodeFrom {ε : Type} {read : Nat → Except ε Byte} {unknown : Byte → ε} {i : Instr}
    (h : decodeFrom read unknown = .ok i) : ∀ k (hk : k < (encode i).length), read k = .ok ((encode i)[k]) := by
  rw [decodeFrom_eq] at h
  split at h
  · cases h
  next op h0 =>
  split at h
  · cases h
  next kd hk =>
  obtain rfl := decodeOpcode_eq_some.1 hk
  split at h
  · cases h
  next o1 h1 =>
  split at h
  · cases h
  next o2 h2 =>
  obtain rfl := Except.ok.inj h
  have hpos := opWidth_opcode_pos kd
  intro j hj
  rw [length_encode_instr] at hj
  simp only [encode_instr, List.getElem_take]
  obtain rfl | rfl | rfl : j = 0 ∨ j = 1 ∨ j = 2 := by omega
  · exact h0
  · rwa [readOwned, if_pos (by simp; omega)] at h1
  · rwa [readOwned, if_pos (by simp; omega)] at h2

end Sys2Proof
end

