-- ==== Sys2Proof/Laws/State.lean ====
section
/-! SUPPORT. One lemma per field per update of State, true by `rfl`, so that no later proof unfolds a record update;
and what a register read gives after a register write. -/

namespace Sys2Proof.Machine

variable (s : State)

/-! ### setReg -/

@[simp] theorem State.setReg_regs (r : RegIx) (v : Byte) : (s.setReg r v).regs = s.regs.set r v := rfl
@[simp] theorem State.setReg_pc (r : RegIx) (v : Byte) : (s.setReg r v).pc = s.pc := rfl
@[simp] theorem State.setReg_mem (r : RegIx) (v : Byte) : (s.setReg r v).mem = s.mem := rfl
@[simp] theorem State.setReg_run (r : RegIx) (v : Byte) : (s.setReg r v).run = s.run := rfl
@[simp] theorem State.setReg_fault (r : RegIx) (v : Byte) : (s.setReg r v).fault = s.fault := rfl
@[simp] theorem State.setReg_out (r : RegIx) (v : Byte) : (s.setReg r v).out = s.out := rfl

/-! ### setSp -/

@[simp] theorem State.setSp_regs (v : Byte) : (s.setSp v).regs = s.regs.set Config.spIndex v := rfl
@[simp] theorem State.setSp_pc (v : Byte) : (s.setSp v).pc = s.pc := rfl
@[simp] theorem State.setSp_mem (v : Byte) : (s.setSp v).mem = s.mem := rfl
@[simp] theorem State.setSp_run (v : Byte) : (s.setSp v).run = s.run := rfl
@[simp] theorem State.setSp_fault (v : Byte) : (s.setSp v).fault = s.fault := rfl
@[simp] theorem State.setSp_out (v : Byte) : (s.setSp v).out = s.out := rfl

/-! ### setPc -/

@[simp] theorem State.setPc_regs (t : Pc) : (s.setPc t).regs = s.regs := rfl
@[simp] theorem State.setPc_pc (t : Pc) : (s.setPc t).pc = t := rfl
@[simp] theorem State.setPc_mem (t : Pc) : (s.setPc t).mem = s.mem := rfl
@[simp] theorem State.setPc_run (t : Pc) : (s.setPc t).run = s.run := rfl
@[simp] theorem State.setPc_fault (t : Pc) : (s.setPc t).fault = s.fault := rfl
@[simp] theorem State.setPc_out (t : Pc) : (s.setPc t).out = s.out := rfl

/-! ### advance -/

@[simp] theorem State.advance_regs (n : Nat) : (s.advance n).regs = s.regs := rfl
@[simp] theorem State.advance_pc (n : Nat) : (s.advance n).pc = s.pc + BitVec.ofNat 9 n := rfl
@[simp] theorem State.advance_mem (n : Nat) : (s.advance n).mem = s.mem := rfl
@[simp] theorem State.advance_run (n : Nat) : (s.advance n).run = s.run := rfl
@[simp] theorem State.advance_fault (n : Nat) : (s.advance n).fault = s.fault := rfl
@[simp] theorem State.advance_out (n : Nat) : (s.advance n).out = s.out := rfl

/-! ### setMem -/

@[simp] theorem State.setMem_regs (m : Memory) : (s.setMem m).regs = s.regs := rfl
@[simp] theorem State.setMem_pc (m : Memory) : (s.setMem m).pc = s.pc := rfl
@[simp] theorem State.setMem_mem (m : Memory) : (s.setMem m).mem = m := rfl
@[simp] theorem State.setMem_run (m : Memory) : (s.setMem m).run = s.run := rfl
@[simp] theorem State.setMem_fault (m : Memory) : (s.setMem m).fault = s.fault := rfl
@[simp] theorem State.setMem_out (m : Memory) : (s.setMem m).out = s.out := rfl

/-! ### emit -/

@[simp] theorem State.emit_regs (v : Byte) : (s.emit v).regs = s.regs := rfl
@[simp] theorem State.emit_pc (v : Byte) : (s.emit v).pc = s.pc := rfl
@[simp] theorem State.emit_mem (v : Byte) : (s.emit v).mem = s.mem := rfl
@[simp] theorem State.emit_run (v : Byte) : (s.emit v).run = s.run := rfl
@[simp] theorem State.emit_fault (v : Byte) : (s.emit v).fault = s.fault := rfl
@[simp] theorem State.emit_out (v : Byte) : (s.emit v).out = s.out ++ [v] := rfl

/-! ### setRun -/

@[simp] theorem State.setRun_regs (r : RunState) : (s.setRun r).regs = s.regs := rfl
@[simp] theorem State.setRun_pc (r : RunState) : (s.setRun r).pc = s.pc := rfl
@[simp] theorem State.setRun_mem (r : RunState) : (s.setRun r).mem = s.mem := rfl
@[simp] theorem State.setRun_run (r : RunState) : (s.setRun r).run = r := rfl
@[simp] theorem State.setRun_fault (r : RunState) : (s.setRun r).fault = s.fault := rfl
@[simp] theorem State.setRun_out (r : RunState) : (s.setRun r).out = s.out := rfl

/-! ### takeFault -/

@[simp] theorem State.takeFault_regs (f : FaultReport) : (s.takeFault f).regs = s.regs := rfl
@[simp] theorem State.takeFault_pc (f : FaultReport) : (s.takeFault f).pc = s.pc := rfl
@[simp] theorem State.takeFault_mem (f : FaultReport) : (s.takeFault f).mem = s.mem := rfl
@[simp] theorem State.takeFault_run (f : FaultReport) : (s.takeFault f).run = .faulted := rfl
@[simp] theorem State.takeFault_fault (f : FaultReport) : (s.takeFault f).fault = some ⟨f.cause, s.pc, f.info⟩ := rfl
@[simp] theorem State.takeFault_out (f : FaultReport) : (s.takeFault f).out = s.out := rfl

/-! ### Reading a register after an update -/

/-- A register write changes that register and no other. -/
@[simp] theorem State.reg_setReg (r q : RegIx) (v : Byte) : (s.setReg r v).reg q = if q = r then v else s.reg q := by
  simp only [State.reg, State.setReg, Fin.getElem_fin, Vector.getElem_set]
  by_cases h : q = r
  · simp [h]
  · simp [h, Fin.val_ne_of_ne (Ne.symm h)]

/-- A stack-pointer write changes `x[7]` and no other register. -/
@[simp] theorem State.reg_setSp (q : RegIx) (v : Byte) :
    (s.setSp v).reg q = if q = Config.spIndex then v else s.reg q := State.reg_setReg s _ _ _

@[simp] theorem State.reg_setPc (t : Pc) (q : RegIx) : (s.setPc t).reg q = s.reg q := rfl
@[simp] theorem State.reg_advance (n : Nat) (q : RegIx) : (s.advance n).reg q = s.reg q := rfl
@[simp] theorem State.reg_setMem (m : Memory) (q : RegIx) : (s.setMem m).reg q = s.reg q := rfl
@[simp] theorem State.reg_emit (v : Byte) (q : RegIx) : (s.emit v).reg q = s.reg q := rfl
@[simp] theorem State.reg_setRun (r : RunState) (q : RegIx) : (s.setRun r).reg q = s.reg q := rfl
@[simp] theorem State.reg_takeFault (f : FaultReport) (q : RegIx) : (s.takeFault f).reg q = s.reg q := rfl

/-! ### Reading the stack pointer after an update -/

@[simp] theorem State.sp_setSp (v : Byte) : (s.setSp v).sp = v := by simp [State.sp]
@[simp] theorem State.sp_setReg (r : RegIx) (v : Byte) :
    (s.setReg r v).sp = if Config.spIndex = r then v else s.sp := by simp [State.sp]
@[simp] theorem State.sp_setPc (t : Pc) : (s.setPc t).sp = s.sp := rfl
@[simp] theorem State.sp_advance (n : Nat) : (s.advance n).sp = s.sp := rfl
@[simp] theorem State.sp_setMem (m : Memory) : (s.setMem m).sp = s.sp := rfl
@[simp] theorem State.sp_emit (v : Byte) : (s.emit v).sp = s.sp := rfl
@[simp] theorem State.sp_setRun (r : RunState) : (s.setRun r).sp = s.sp := rfl
@[simp] theorem State.sp_takeFault (f : FaultReport) : (s.takeFault f).sp = s.sp := rfl

/-! ### Reading memory after an update -/

@[simp] theorem State.byteAt_setReg (r : RegIx) (v : Byte) (a : Nat) : (s.setReg r v).byteAt a = s.byteAt a := rfl
@[simp] theorem State.byteAt_setSp (v : Byte) (a : Nat) : (s.setSp v).byteAt a = s.byteAt a := rfl
@[simp] theorem State.byteAt_setPc (t : Pc) (a : Nat) : (s.setPc t).byteAt a = s.byteAt a := rfl
@[simp] theorem State.byteAt_advance (n : Nat) (a : Nat) : (s.advance n).byteAt a = s.byteAt a := rfl
@[simp] theorem State.byteAt_setMem (m : Memory) (a : Nat) : (s.setMem m).byteAt a = m.read a := rfl
@[simp] theorem State.byteAt_emit (v : Byte) (a : Nat) : (s.emit v).byteAt a = s.byteAt a := rfl
@[simp] theorem State.byteAt_setRun (r : RunState) (a : Nat) : (s.setRun r).byteAt a = s.byteAt a := rfl
@[simp] theorem State.byteAt_takeFault (f : FaultReport) (a : Nat) : (s.takeFault f).byteAt a = s.byteAt a := rfl

/-- Two states with the same fields, the registers compared one by one, are the same state. -/
theorem State.ext_of_fields {s t : State} (hr : ∀ q, t.reg q = s.reg q) (hp : t.pc = s.pc) (hm : t.mem = s.mem)
    (hrun : t.run = s.run) (hf : t.fault = s.fault) (ho : t.out = s.out) : t = s := by
  have hregs : t.regs = s.regs := Vector.ext fun k hk => hr ⟨k, hk⟩
  cases s
  cases t
  simp_all

end Sys2Proof.Machine
end

