-- ==== Sys2Proof/Laws/Ops.lean ====
section
/-! SUPPORT. One lemma per shared operation that says everything the operation can answer. Proofs about instructions
cite these and unfold no operation. -/

namespace Sys2Proof.Machine

/-! ### The memory controller -/

/-- A checked read at a natural-number address. -/
theorem memRead_natCast (m : Memory) (a : Nat) :
    memRead m (a : Int) = if a < 256 then .ok (m.read a) else .error ⟨.memBounds, a⟩ := by
  by_cases h : a < 256 <;> simp [memRead, h]

/-- A checked read at an 8-bit address cannot fault when `MEM_SIZE = 256`. -/
@[simp] theorem memRead_byte (m : Memory) (a : Byte) : memRead m (a.toNat : Int) = .ok (m.read a.toNat) := by
  rw [memRead_natCast, if_pos a.isLt]

/-- A checked write at an 8-bit address faults exactly when the value does not fit a cell. -/
theorem memWrite_byte (m : Memory) (a : Byte) (v : Nat) :
    memWrite m (a.toNat : Int) v =
      if 255 < v then .error ⟨.byteRange, v⟩ else .ok (m.write a.toNat (BitVec.ofNat 8 v)) := by
  have h := a.isLt
  have hb : ¬((a.toNat : Int) < 0 ∨ (Config.memSize : Int) ≤ (a.toNat : Int)) := by
    simp only [Config.memSize]; omega
  rw [memWrite, if_neg hb, Int.toNat_natCast]

/-- A checked write of a byte at an 8-bit address cannot fault when `MEM_SIZE = 256`. -/
@[simp] theorem memWrite_byte_byte (m : Memory) (a v : Byte) :
    memWrite m (a.toNat : Int) v.toNat = .ok (m.write a.toNat v) := by
  have h := v.isLt
  rw [memWrite_byte, if_neg (by omega)]
  simp

/-! ### The stack-pointer sequencer -/

/-- Everything SpDec can answer. -/
theorem spDec_eq (sp : Byte) :
    spDec sp = if sp.toNat = 0 then .error ⟨.stackBounds, 0⟩ else .ok (sp - 1) := by
  unfold spDec
  split_ifs with h
  · simp [h]
  · rfl

theorem spDec_ok_iff {sp t : Byte} : spDec sp = .ok t ↔ t.toNat + 1 = sp.toNat := by
  have h := t.isLt
  have h' := sp.isLt
  rw [spDec_eq]
  split_ifs with h0
  · simp; omega
  · simp only [Except.ok.injEq, ← BitVec.toNat_inj, BitVec.toNat_sub]
    simp; omega

/-- Everything SpInc can answer. -/
theorem spInc_eq (sp : Byte) :
    spInc sp = if sp.toNat < 244 then .ok (sp + 1) else .error ⟨.stackBounds, sp.toNat⟩ := rfl

theorem spInc_ok_iff {sp t : Byte} : spInc sp = .ok t ↔ sp.toNat < 244 ∧ t.toNat = sp.toNat + 1 := by
  have h := t.isLt
  have h' := sp.isLt
  rw [spInc_eq]
  split_ifs with h0
  · simp only [Except.ok.injEq, ← BitVec.toNat_inj, BitVec.toNat_add]
    simp; omega
  · simp [h0]

/-! ### Register operands -/

/-- A valid register operand selects the register of its own number. -/
theorem regOperand_ok_iff {o : Byte} {r : RegIx} : regOperand o = .ok r ↔ o.toNat = r.val := by
  have := r.isLt
  unfold regOperand
  split_ifs with h
  · simp [Fin.ext_iff]
  · simp; omega

/-- Any other register operand raises RegIndex with the operand byte. -/
theorem regOperand_error {o : Byte} (h : 7 < o.toNat) : regOperand o = .error ⟨.regIndex, o.toNat⟩ := by
  unfold regOperand
  rw [dif_neg (by omega)]

/-- A register operand is valid or faults. -/
theorem regOperand_cases (o : Byte) :
    (∃ r : RegIx, o.toNat = r.val ∧ regOperand o = .ok r) ∨
      (7 < o.toNat ∧ regOperand o = .error ⟨.regIndex, o.toNat⟩) := by
  by_cases h : o.toNat < 8
  · exact .inl ⟨⟨o.toNat, h⟩, rfl, regOperand_ok_iff.2 rfl⟩
  · exact .inr ⟨by omega, regOperand_error (by omega)⟩

/-! ### The end of an instruction -/

@[simp] theorem State.finish_ok (s t : State) : s.finish (.ok t) = .next t := rfl

@[simp] theorem State.finish_error (s : State) (f : FaultReport) : s.finish (.error f) = .next (s.takeFault f) := rfl

/-- An instruction ends in a next state, never in a stop. -/
theorem State.finish_next (s : State) (r : Except FaultReport State) : ∃ t, s.finish r = .next t := by
  cases r with
  | ok t => exact ⟨t, rfl⟩
  | error f => exact ⟨s.takeFault f, rfl⟩

end Sys2Proof.Machine
end

