-- ==== Sys2Proof/Laws/Exec.lean ====
section
/-! SUPPORT. One equation per instruction and per way it ends, so that no proof unfolds a meaning: the result state as
updates of the start state, or the fault taken. -/

namespace Sys2Proof.Machine

variable {s : State}

/-! ### LDI and PRN -/

theorem exec_ldi {d imm : Byte} {r : RegIx} (h : d.toNat = r.val) :
    exec (.ldi d imm) s = .next ((s.setReg r imm).advance 3) := by
  simp only [exec, execLdi, regOperand_ok_iff.2 h]
  rfl

theorem exec_ldi_bad {d imm : Byte} (h : 7 < d.toNat) :
    exec (.ldi d imm) s = .next (s.takeFault ⟨.regIndex, d.toNat⟩) := by
  simp only [exec, execLdi, regOperand_error h]
  rfl

theorem exec_prn {src : Byte} {r : RegIx} (h : src.toNat = r.val) :
    exec (.prn src) s = .next ((s.emit (s.reg r)).advance 2) := by
  simp only [exec, execPrn, regOperand_ok_iff.2 h]
  rfl

theorem exec_prn_bad {src : Byte} (h : 7 < src.toNat) :
    exec (.prn src) s = .next (s.takeFault ⟨.regIndex, src.toNat⟩) := by
  simp only [exec, execPrn, regOperand_error h]
  rfl

/-! ### The ALU -/

/-- The shape of ADD, SUB and MUL, with valid operands. -/
theorem execAlu_ok {op : AluOp} {opc d src : Byte} {rd rs : RegIx} (hd : d.toNat = rd.val) (hs : src.toNat = rs.val) :
    execAlu op opc d src s =
      .next ((s.setReg rd (aluResult op (s.reg rd) (s.reg rs))).advance (opWidth opc)) := by
  simp only [execAlu, regOperand_ok_iff.2 hd, regOperand_ok_iff.2 hs]
  rfl

theorem execAlu_bad_first {op : AluOp} {opc d src : Byte} (hd : 7 < d.toNat) :
    execAlu op opc d src s = .next (s.takeFault ⟨.regIndex, d.toNat⟩) := by
  simp only [execAlu, regOperand_error hd]
  rfl

theorem execAlu_bad_second {op : AluOp} {opc d src : Byte} (hd : d.toNat ≤ 7) (hs : 7 < src.toNat) :
    execAlu op opc d src s = .next (s.takeFault ⟨.regIndex, src.toNat⟩) := by
  have h : d.toNat = (⟨d.toNat, by omega⟩ : RegIx).val := rfl
  simp only [execAlu, regOperand_ok_iff.2 h, regOperand_error hs]
  rfl

theorem exec_add {d src : Byte} {rd rs : RegIx} (hd : d.toNat = rd.val) (hs : src.toNat = rs.val) :
    exec (.add d src) s = .next ((s.setReg rd (aluResult .add (s.reg rd) (s.reg rs))).advance 3) := execAlu_ok hd hs

theorem exec_sub {d src : Byte} {rd rs : RegIx} (hd : d.toNat = rd.val) (hs : src.toNat = rs.val) :
    exec (.sub d src) s = .next ((s.setReg rd (aluResult .sub (s.reg rd) (s.reg rs))).advance 3) := execAlu_ok hd hs

theorem exec_mul {d src : Byte} {rd rs : RegIx} (hd : d.toNat = rd.val) (hs : src.toNat = rs.val) :
    exec (.mul d src) s = .next ((s.setReg rd (aluResult .mul (s.reg rd) (s.reg rs))).advance 3) := execAlu_ok hd hs

/-- The ALU's result is the exact result modulo 256. -/
theorem aluResult_toNat (op : AluOp) (a b : Byte) : ((aluResult op a b).toNat : Int) = aluExact op a b % 256 := by
  rw [aluResult, BitVec.toNat_ofInt]
  omega

/-! ### PUSH and POP -/

/-- PUSH with a valid operand: it faults at the stack pointer's lower limit, else it stores and moves. -/
theorem exec_push {src : Byte} {r : RegIx} {t : Byte} (h : src.toNat = r.val) (ht : spDec s.sp = .ok t) :
    exec (.push src) s = .next (((s.setMem (s.mem.write t.toNat
      (if r = Config.spIndex then t else s.reg r))).setSp t).advance 2) := by
  simp only [exec, execPush, regOperand_ok_iff.2 h, bind, Except.bind, ht, memWrite_byte_byte]
  rfl

theorem exec_push_empty {src : Byte} (h : src.toNat ≤ 7) (hsp : s.sp.toNat = 0) :
    exec (.push src) s = .next (s.takeFault ⟨.stackBounds, 0⟩) := by
  have hr : src.toNat = (⟨src.toNat, by omega⟩ : RegIx).val := rfl
  simp only [exec, execPush, regOperand_ok_iff.2 hr, bind, Except.bind, spDec_eq, if_pos hsp]
  rfl

theorem exec_push_bad {src : Byte} (h : 7 < src.toNat) :
    exec (.push src) s = .next (s.takeFault ⟨.regIndex, src.toNat⟩) := by
  simp only [exec, execPush, regOperand_error h]
  rfl

/-- The value POP's increment applies to: the popped byte for `POP R7`, the stack pointer otherwise. -/
def popBase (s : State) (r : RegIx) : Byte := if r = Config.spIndex then s.byteAt s.sp.toNat else s.sp

theorem exec_pop {d : Byte} {r : RegIx} {t : Byte} (h : d.toNat = r.val) (ht : spInc (popBase s r) = .ok t) :
    exec (.pop d) s = .next (((s.setReg r (s.byteAt s.sp.toNat)).setSp t).advance 2) := by
  simp only [popBase, State.byteAt] at ht
  simp only [exec, execPop, regOperand_ok_iff.2 h, bind, Except.bind, memRead_byte, ht]
  rfl

theorem exec_pop_full {d : Byte} {r : RegIx} (h : d.toNat = r.val) (hb : 244 ≤ (popBase s r).toNat) :
    exec (.pop d) s = .next (s.takeFault ⟨.stackBounds, (popBase s r).toNat⟩) := by
  have ht : spInc (popBase s r) = .error ⟨.stackBounds, (popBase s r).toNat⟩ := by
    rw [spInc_eq, if_neg (by omega)]
  simp only [exec, execPop, regOperand_ok_iff.2 h, bind, Except.bind, memRead_byte]
  simp only [popBase, State.byteAt] at ht ⊢
  simp only [ht]
  rfl

theorem exec_pop_bad {d : Byte} (h : 7 < d.toNat) :
    exec (.pop d) s = .next (s.takeFault ⟨.regIndex, d.toNat⟩) := by
  simp only [exec, execPop, regOperand_error h]
  rfl

/-! ### CALL, RET and HLT -/

theorem exec_call {target : Byte} {r : RegIx} {t : Byte} (h : target.toNat = r.val) (ht : spDec s.sp = .ok t)
    (hpc : s.pc.toNat + 2 ≤ 255) :
    exec (.call target) s = .next (((s.setMem (s.mem.write t.toNat (BitVec.ofNat 8 (s.pc.toNat + 2)))).setSp t).setPc
      ((if r = Config.spIndex then t else s.reg r).setWidth 9)) := by
  have hw : ¬255 < returnAddress s.pc := by simp only [returnAddress]; omega
  simp only [exec, execCall, regOperand_ok_iff.2 h, bind, Except.bind, ht, memWrite_byte, if_neg hw]
  rfl

theorem exec_call_range {target : Byte} {t : Byte} (h : target.toNat ≤ 7) (ht : spDec s.sp = .ok t)
    (hpc : 255 < s.pc.toNat + 2) :
    exec (.call target) s = .next (s.takeFault ⟨.byteRange, (s.pc.toNat + 2 : Nat)⟩) := by
  have hr : target.toNat = (⟨target.toNat, by omega⟩ : RegIx).val := rfl
  have hw : 255 < returnAddress s.pc := hpc
  simp only [exec, execCall, regOperand_ok_iff.2 hr, bind, Except.bind, ht, memWrite_byte, if_pos hw]
  simp only [State.finish_error, returnAddress]

theorem exec_call_empty {target : Byte} (h : target.toNat ≤ 7) (hsp : s.sp.toNat = 0) :
    exec (.call target) s = .next (s.takeFault ⟨.stackBounds, 0⟩) := by
  have hr : target.toNat = (⟨target.toNat, by omega⟩ : RegIx).val := rfl
  simp only [exec, execCall, regOperand_ok_iff.2 hr, bind, Except.bind, spDec_eq, if_pos hsp]
  rfl

theorem exec_call_bad {target : Byte} (h : 7 < target.toNat) :
    exec (.call target) s = .next (s.takeFault ⟨.regIndex, target.toNat⟩) := by
  simp only [exec, execCall, regOperand_error h]
  rfl

theorem exec_ret {t : Byte} (ht : spInc s.sp = .ok t) :
    exec .ret s = .next ((s.setSp t).setPc ((s.byteAt s.sp.toNat).setWidth 9)) := by
  simp only [exec, execRet, bind, Except.bind, memRead_byte, ht]
  rfl

theorem exec_ret_full (h : 244 ≤ s.sp.toNat) :
    exec .ret s = .next (s.takeFault ⟨.stackBounds, s.sp.toNat⟩) := by
  have ht : spInc s.sp = .error ⟨.stackBounds, s.sp.toNat⟩ := by
    rw [spInc_eq, if_neg (by omega)]
  simp only [exec, execRet, bind, Except.bind, memRead_byte, ht]
  rfl

theorem exec_hlt : exec .hlt s = .next (s.setRun .halted) := rfl

/-! ### What any instruction can do -/

/-- Every instruction ends in a next state. -/
theorem exec_next (i : Instr) (s : State) : ∃ t, exec i s = .next t := by
  cases i <;>
    simp only [exec, execLdi, execPrn, execAdd, execSub, execMul, execAlu, execPush, execPop, execCall, execRet,
      execHlt] <;>
    exact State.finish_next s _

/-- What an instruction with its own effect does, one constructor per instruction; the premises are the conditions under
which it completes. -/
inductive Completes (s : State) : Instr → State → Prop where
  | ldi {d imm : Byte} {r : RegIx} (h : d.toNat = r.val) : Completes s (.ldi d imm) ((s.setReg r imm).advance 3)
  | prn {src : Byte} {r : RegIx} (h : src.toNat = r.val) : Completes s (.prn src) ((s.emit (s.reg r)).advance 2)
  | add {d src : Byte} {rd rs : RegIx} (hd : d.toNat = rd.val) (hs : src.toNat = rs.val) :
      Completes s (.add d src) ((s.setReg rd (aluResult .add (s.reg rd) (s.reg rs))).advance 3)
  | sub {d src : Byte} {rd rs : RegIx} (hd : d.toNat = rd.val) (hs : src.toNat = rs.val) :
      Completes s (.sub d src) ((s.setReg rd (aluResult .sub (s.reg rd) (s.reg rs))).advance 3)
  | mul {d src : Byte} {rd rs : RegIx} (hd : d.toNat = rd.val) (hs : src.toNat = rs.val) :
      Completes s (.mul d src) ((s.setReg rd (aluResult .mul (s.reg rd) (s.reg rs))).advance 3)
  | push {src : Byte} {r : RegIx} {t : Byte} (h : src.toNat = r.val) (ht : t.toNat + 1 = s.sp.toNat) :
      Completes s (.push src) (((s.setMem (s.mem.write t.toNat
        (if r = Config.spIndex then t else s.reg r))).setSp t).advance 2)
  | pop {d : Byte} {r : RegIx} {t : Byte} (h : d.toNat = r.val) (hb : (popBase s r).toNat < 244)
      (ht : t.toNat = (popBase s r).toNat + 1) :
      Completes s (.pop d) (((s.setReg r (s.byteAt s.sp.toNat)).setSp t).advance 2)
  | call {target : Byte} {r : RegIx} {t : Byte} (h : target.toNat = r.val) (ht : t.toNat + 1 = s.sp.toNat)
      (hpc : s.pc.toNat + 2 ≤ 255) :
      Completes s (.call target) (((s.setMem (s.mem.write t.toNat (BitVec.ofNat 8 (s.pc.toNat + 2)))).setSp t).setPc
        ((if r = Config.spIndex then t else s.reg r).setWidth 9))
  | ret {t : Byte} (hb : s.sp.toNat < 244) (ht : t.toNat = s.sp.toNat + 1) :
      Completes s .ret ((s.setSp t).setPc ((s.byteAt s.sp.toNat).setWidth 9))
  | hlt : Completes s .hlt (s.setRun .halted)

/-- The faults an instruction's phases 4 and 5 can raise, with their info. -/
inductive Raises (s : State) : Instr → FaultReport → Prop where
  | regIndex {i : Instr} {o : Byte} (hm : o ∈ i.registerOperands) (h : 7 < o.toNat) :
      Raises s i ⟨.regIndex, o.toNat⟩
  | pushEmpty {src : Byte} (h : s.sp.toNat = 0) : Raises s (.push src) ⟨.stackBounds, 0⟩
  | callEmpty {target : Byte} (h : s.sp.toNat = 0) : Raises s (.call target) ⟨.stackBounds, 0⟩
  | popFull {d : Byte} {r : RegIx} (hd : d.toNat = r.val) (h : 244 ≤ (popBase s r).toNat) :
      Raises s (.pop d) ⟨.stackBounds, (popBase s r).toNat⟩
  | retFull (h : 244 ≤ s.sp.toNat) : Raises s .ret ⟨.stackBounds, s.sp.toNat⟩
  | callRange {target : Byte} (h : 255 < s.pc.toNat + 2) :
      Raises s (.call target) ⟨.byteRange, (s.pc.toNat + 2 : Nat)⟩

/-- Everything the shape of ADD, SUB and MUL can answer. -/
theorem execAlu_cases {op : AluOp} {opc d src : Byte} {t : State} (h : execAlu op opc d src s = .next t) :
    (∃ rd rs : RegIx, d.toNat = rd.val ∧ src.toNat = rs.val ∧
      t = (s.setReg rd (aluResult op (s.reg rd) (s.reg rs))).advance (opWidth opc)) ∨
    ∃ o, (o = d ∨ o = src) ∧ 7 < o.toNat ∧ t = s.takeFault ⟨.regIndex, o.toNat⟩ := by
  obtain ⟨rd, hd, -⟩ | ⟨hb, -⟩ := regOperand_cases d
  · obtain ⟨rs, hs, -⟩ | ⟨hb, -⟩ := regOperand_cases src
    · rw [execAlu_ok hd hs] at h
      exact .inl ⟨rd, rs, hd, hs, (Host.Outcome.next.inj h).symm⟩
    · rw [execAlu_bad_second (by omega) hb] at h
      exact .inr ⟨_, .inr rfl, hb, (Host.Outcome.next.inj h).symm⟩
  · rw [execAlu_bad_first hb] at h
    exact .inr ⟨_, .inl rfl, hb, (Host.Outcome.next.inj h).symm⟩

/-- Inversion of `exec`: the instruction completes, or it takes a fault of the state it started in. -/
theorem exec_cases {i : Instr} {s t : State} (h : exec i s = .next t) :
    Completes s i t ∨ ∃ f, Raises s i f ∧ t = s.takeFault f := by
  have key : ∀ {i u}, exec i s = .next u → exec i s = .next t → t = u := fun h1 h2 => by
    rw [h1] at h2; exact (Host.Outcome.next.inj h2).symm
  cases i with
  | ldi d imm =>
    obtain ⟨r, hr, -⟩ | ⟨hb, -⟩ := regOperand_cases d
    · exact .inl (key (exec_ldi hr) h ▸ .ldi hr)
    · exact .inr ⟨_, .regIndex (by simp [Instr.registerOperands]) hb, key (exec_ldi_bad hb) h⟩
  | prn a =>
    obtain ⟨r, hr, -⟩ | ⟨hb, -⟩ := regOperand_cases a
    · exact .inl (key (exec_prn hr) h ▸ .prn hr)
    · exact .inr ⟨_, .regIndex (by simp [Instr.registerOperands]) hb, key (exec_prn_bad hb) h⟩
  | add d b =>
    obtain ⟨rd, rs, hd, hs, rfl⟩ | ⟨o, ho, hb, rfl⟩ :=
      execAlu_cases (show execAlu .add opcAdd d b s = .next t from h)
    · exact .inl (.add hd hs)
    · exact .inr ⟨_, .regIndex (by simpa [Instr.registerOperands] using ho) hb, rfl⟩
  | sub d b =>
    obtain ⟨rd, rs, hd, hs, rfl⟩ | ⟨o, ho, hb, rfl⟩ :=
      execAlu_cases (show execAlu .sub opcSub d b s = .next t from h)
    · exact .inl (.sub hd hs)
    · exact .inr ⟨_, .regIndex (by simpa [Instr.registerOperands] using ho) hb, rfl⟩
  | mul d b =>
    obtain ⟨rd, rs, hd, hs, rfl⟩ | ⟨o, ho, hb, rfl⟩ :=
      execAlu_cases (show execAlu .mul opcMul d b s = .next t from h)
    · exact .inl (.mul hd hs)
    · exact .inr ⟨_, .regIndex (by simpa [Instr.registerOperands] using ho) hb, rfl⟩
  | push a =>
    obtain ⟨r, hr, -⟩ | ⟨hb, -⟩ := regOperand_cases a
    · by_cases h0 : s.sp.toNat = 0
      · exact .inr ⟨_, .pushEmpty h0, key (exec_push_empty (by omega) h0) h⟩
      · have ht : spDec s.sp = .ok (s.sp - 1) := by rw [spDec_eq, if_neg h0]
        exact .inl (key (exec_push hr ht) h ▸ .push hr (spDec_ok_iff.1 ht))
    · exact .inr ⟨_, .regIndex (by simp [Instr.registerOperands]) hb, key (exec_push_bad hb) h⟩
  | pop d =>
    obtain ⟨r, hr, -⟩ | ⟨hb, -⟩ := regOperand_cases d
    · by_cases hb : (popBase s r).toNat < 244
      · have ht : spInc (popBase s r) = .ok (popBase s r + 1) := by rw [spInc_eq, if_pos hb]
        exact .inl (key (exec_pop hr ht) h ▸ .pop hr hb (spInc_ok_iff.1 ht).2)
      · exact .inr ⟨_, .popFull hr (by omega), key (exec_pop_full hr (by omega)) h⟩
    · exact .inr ⟨_, .regIndex (by simp [Instr.registerOperands]) hb, key (exec_pop_bad hb) h⟩
  | call a =>
    obtain ⟨r, hr, -⟩ | ⟨hb, -⟩ := regOperand_cases a
    · by_cases h0 : s.sp.toNat = 0
      · exact .inr ⟨_, .callEmpty h0, key (exec_call_empty (by omega) h0) h⟩
      · have ht : spDec s.sp = .ok (s.sp - 1) := by rw [spDec_eq, if_neg h0]
        by_cases hpc : s.pc.toNat + 2 ≤ 255
        · exact .inl (key (exec_call hr ht hpc) h ▸ .call hr (spDec_ok_iff.1 ht) hpc)
        · exact .inr ⟨_, .callRange (by omega), key (exec_call_range (by omega) ht (by omega)) h⟩
    · exact .inr ⟨_, .regIndex (by simp [Instr.registerOperands]) hb, key (exec_call_bad hb) h⟩
  | ret =>
    by_cases hb : s.sp.toNat < 244
    · have ht : spInc s.sp = .ok (s.sp + 1) := by rw [spInc_eq, if_pos hb]
      exact .inl (key (exec_ret ht) h ▸ .ret hb (spInc_ok_iff.1 ht).2)
    · exact .inr ⟨_, .retFull (by omega), key (exec_ret_full (by omega)) h⟩
  | hlt => exact .inl (key exec_hlt h ▸ .hlt)

end Sys2Proof.Machine
end

