-- ==== Sys2Proof/Laws/Memory.lean ====
section
/-! SUPPORT. The laws of memory as data: what a read gives after a write, and that every memory operation keeps the
canonical form. -/

namespace Sys2Proof.Machine

/-- Every listed address of `m` lies above `x`. -/
def Memory.above (x : Nat) (m : Memory) : Bool := m.all fun c => decide (x < c.1)

@[simp] theorem Memory.read_nil (a : Nat) : Memory.read [] a = 0 := rfl

@[simp] theorem Memory.wf_nil : Memory.wf [] = true := rfl

/-- The canonical form of a list with a first entry, part by part. -/
theorem Memory.wf_cons {x : Nat} {b : Byte} {m : Memory} :
    Memory.wf ((x, b) :: m) = true ↔ x < 256 ∧ b ≠ 0 ∧ Memory.above x m = true ∧ m.wf = true := by
  simp only [Memory.wf, Memory.above, Bool.and_eq_true, decide_eq_true_eq, bne_iff_ne, and_assoc]
  exact Iff.rfl

theorem Memory.above_cons {x y : Nat} {b : Byte} {m : Memory} :
    Memory.above x ((y, b) :: m) = true ↔ x < y ∧ Memory.above x m = true := by
  simp [Memory.above]

theorem Memory.above_trans {x y : Nat} {m : Memory} (hxy : x ≤ y) (h : Memory.above y m = true) :
    Memory.above x m = true := by
  simp only [Memory.above, List.all_eq_true, decide_eq_true_eq] at *
  exact fun c hc => lt_of_le_of_lt hxy (h c hc)

/-- An address at or below every listed one reads as unlisted. -/
theorem Memory.read_of_above {x a : Nat} {m : Memory} (h : Memory.above x m = true) (ha : a ≤ x) :
    m.read a = 0 := by
  induction m with
  | nil => rfl
  | cons c m ih =>
    obtain ⟨y, b⟩ := c
    obtain ⟨hy, hm⟩ := Memory.above_cons.1 h
    have hne : y ≠ a := by omega
    simp [Memory.read, hne, ih hm]

/-- An address outside memory reads as unlisted. -/
theorem Memory.read_of_le {a : Nat} {m : Memory} (h : m.wf = true) (ha : 256 ≤ a) : m.read a = 0 := by
  induction m with
  | nil => rfl
  | cons c m ih =>
    obtain ⟨y, b⟩ := c
    obtain ⟨hy, -, -, hm⟩ := Memory.wf_cons.1 h
    have hne : y ≠ a := by omega
    simp [Memory.read, hne, ih hm]

theorem Memory.above_write {x a : Nat} {v : Byte} {m : Memory} (hm : Memory.above x m = true) (ha : x < a) :
    Memory.above x (m.write a v) = true := by
  induction m with
  | nil => unfold Memory.write; split <;> simp [Memory.above, ha]
  | cons c m ih =>
    obtain ⟨y, b⟩ := c
    obtain ⟨hy, hm'⟩ := Memory.above_cons.1 hm
    unfold Memory.write
    split_ifs <;> simp [Memory.above_cons, *]

/-- A write inside memory keeps the canonical form. -/
theorem Memory.wf_write {a : Nat} {v : Byte} {m : Memory} (hm : m.wf = true) (ha : a < 256) :
    (m.write a v).wf = true := by
  induction m with
  | nil =>
    unfold Memory.write
    split_ifs with hv
    · rfl
    · exact Memory.wf_cons.2 ⟨ha, hv, rfl, rfl⟩
  | cons c m ih =>
    obtain ⟨y, b⟩ := c
    obtain ⟨hy, hne, hab, hm'⟩ := Memory.wf_cons.1 hm
    unfold Memory.write
    split_ifs with hlt hv heq hv
    · exact hm
    · exact Memory.wf_cons.2 ⟨ha, hv, Memory.above_cons.2 ⟨hlt, Memory.above_trans hlt.le hab⟩, hm⟩
    · exact hm'
    · exact Memory.wf_cons.2 ⟨ha, hv, heq ▸ hab, hm'⟩
    · exact Memory.wf_cons.2 ⟨hy, hne, Memory.above_write hab (by omega), ih hm'⟩

/-- A read after a write gives the byte written at that address and the old byte at every other one. -/
theorem Memory.read_write {a : Nat} {v : Byte} {m : Memory} (hm : m.wf = true) (b : Nat) :
    (m.write a v).read b = if b = a then v else m.read b := by
  induction m with
  | nil =>
    unfold Memory.write
    split_ifs with hv hb hb
    · rw [hv]; rfl
    · rfl
    · simp [Memory.read, hb]
    · simp [Memory.read, Ne.symm hb, Memory.unlisted]
  | cons c m ih =>
    obtain ⟨y, w⟩ := c
    obtain ⟨-, -, hab, hm'⟩ := Memory.wf_cons.1 hm
    unfold Memory.write
    by_cases hlt : a < y
    · have hall : Memory.above a ((y, w) :: m) = true :=
        Memory.above_cons.2 ⟨hlt, Memory.above_trans hlt.le hab⟩
      by_cases hv : v = Memory.unlisted <;> by_cases hb : b = a
      · subst hb
        simp [hlt, hv, Memory.read_of_above hall le_rfl, Memory.unlisted]
      · simp [hlt, hv, hb]
      · simp [hlt, hv, hb, Memory.read]
      · simp [hlt, hv, hb, Memory.read, Ne.symm hb]
    · by_cases heq : a = y
      · subst heq
        by_cases hv : v = Memory.unlisted <;> by_cases hb : b = a
        · subst hb
          simp [hv, Memory.read_of_above hab le_rfl, Memory.unlisted]
        · simp [hv, hb, Memory.read, Ne.symm hb]
        · simp [hv, hb, Memory.read]
        · simp [hv, hb, Memory.read, Ne.symm hb]
      · by_cases hy : y = b
        · subst hy
          simp [hlt, heq, Memory.read, Ne.symm heq]
        · simp [hlt, heq, Memory.read, hy, ih hm']

/-- A write of a byte that is not zero leaves a listed cell. -/
theorem Memory.write_ne_nil {m : Memory} {a : Nat} {v : Byte} (h : v ≠ 0) : m.write a v ≠ [] := by
  have h' : v ≠ Memory.unlisted := h
  cases m with
  | nil => simp [Memory.write, h']
  | cons c m =>
    obtain ⟨x, b⟩ := c
    simp only [Memory.write, if_neg h']
    split_ifs <;> simp

/-- Storing bytes keeps the canonical form. -/
theorem storeBytes_wf {bytes : List Byte} {m : Memory} {a : Nat} (hm : m.wf = true) :
    (storeBytes m a bytes).wf = true := by
  induction bytes generalizing m a with
  | nil => exact hm
  | cons b rest ih =>
    refine ih ?_
    split_ifs with ha
    · exact Memory.wf_write hm ha
    · exact hm

/-- Reading after storing bytes: the stored byte inside the stored range (as far as memory goes), the old byte
outside. -/
theorem storeBytes_read {bytes : List Byte} {m : Memory} {a : Nat} (hm : m.wf = true) (b : Nat) :
    (storeBytes m a bytes).read b =
      if h : a ≤ b ∧ b < a + bytes.length ∧ b < 256 then bytes[b - a]'(by omega) else m.read b := by
  induction bytes generalizing m a with
  | nil =>
    have : ¬(a ≤ b ∧ b < a + ([] : List Byte).length ∧ b < 256) := by simp; omega
    simp only [storeBytes, dif_neg this]
  | cons c rest ih =>
    have hm' : (if a < Config.memSize then m.write a c else m).wf = true := by
      split_ifs with ha
      · exact Memory.wf_write hm ha
      · exact hm
    have hread : (if a < Config.memSize then m.write a c else m).read b =
        if a < 256 ∧ b = a then c else m.read b := by
      by_cases ha : a < 256
      · simp [Config.memSize, ha, Memory.read_write hm]
      · simp [Config.memSize, ha]
    rw [storeBytes, ih hm', hread]
    by_cases hb : b = a
    · subst hb
      by_cases hlt : b < 256 <;> simp [hlt]
    · by_cases hin : a + 1 ≤ b ∧ b < a + 1 + rest.length ∧ b < 256
      · have hin' : a ≤ b ∧ b < a + (c :: rest).length ∧ b < 256 := by simp; omega
        have hk : b - a = (b - (a + 1)) + 1 := by omega
        simp only [dif_pos hin, dif_pos hin', hk, List.getElem_cons_succ]
      · have hin' : ¬(a ≤ b ∧ b < a + (c :: rest).length ∧ b < 256) := by simp; omega
        rw [dif_neg hin, dif_neg hin', if_neg (fun h => hb h.2)]

/-- The state after reset has canonical memory. -/
theorem reset_mem_wf : State.reset.mem.wf = true := rfl

end Sys2Proof.Machine
end

