-- ==== Sys2Proof/Laws/PerInstr.lean ====
section
/-! SUPPORT. Statements made once for every instruction, one lemma per constructor. -/

namespace Sys2Proof.Laws.EncodeLength

/-- The encoding of an instruction starts with its opcode byte and is as long as the width the top two bits of that
byte give, 1 to 3 bytes; its register operands are among its operand bytes (spec/30_encoding.md R50, R52, R53). -/
def Statement (i : Instr) : Prop :=
  (encode i).head? = some i.opcode ∧ (encode i).length = opWidth i.opcode ∧ (encode i).length ≤ 3 ∧
    ∀ o ∈ i.registerOperands, o ∈ (encode i).tail

theorem ldi (d imm : Byte) : Statement (.ldi d imm) :=
  ⟨rfl, (opWidth_opcode .ldi).symm, Nat.le_of_ble_eq_true rfl, fun _ h => List.mem_cons.2 (.inl (List.mem_singleton.1 h))⟩
theorem prn (src : Byte) : Statement (.prn src) :=
  ⟨rfl, (opWidth_opcode .prn).symm, Nat.le_of_ble_eq_true rfl, fun _ h => h⟩
theorem add (d src : Byte) : Statement (.add d src) :=
  ⟨rfl, (opWidth_opcode .add).symm, Nat.le_of_ble_eq_true rfl, fun _ h => h⟩
theorem sub (d src : Byte) : Statement (.sub d src) :=
  ⟨rfl, (opWidth_opcode .sub).symm, Nat.le_of_ble_eq_true rfl, fun _ h => h⟩
theorem mul (d src : Byte) : Statement (.mul d src) :=
  ⟨rfl, (opWidth_opcode .mul).symm, Nat.le_of_ble_eq_true rfl, fun _ h => h⟩
theorem push (src : Byte) : Statement (.push src) :=
  ⟨rfl, (opWidth_opcode .push).symm, Nat.le_of_ble_eq_true rfl, fun _ h => h⟩
theorem pop (d : Byte) : Statement (.pop d) :=
  ⟨rfl, (opWidth_opcode .pop).symm, Nat.le_of_ble_eq_true rfl, fun _ h => h⟩
theorem call (target : Byte) : Statement (.call target) :=
  ⟨rfl, (opWidth_opcode .call).symm, Nat.le_of_ble_eq_true rfl, fun _ h => h⟩
theorem ret : Statement .ret :=
  ⟨rfl, (opWidth_opcode .ret).symm, Nat.le_of_ble_eq_true rfl, fun _ h => h⟩
theorem hlt : Statement .hlt :=
  ⟨rfl, (opWidth_opcode .hlt).symm, Nat.le_of_ble_eq_true rfl, fun _ h => h⟩

end Sys2Proof.Laws.EncodeLength
end

