-- ==== Sys2Proof/Laws/Step.lean ====
section
/-! SUPPORT. What fetch and step can do, said once: fetch against the bytes in memory, and the inversion of step. -/

namespace Sys2Proof.Machine

variable {s : State}

/-- Fetching byte number `k` of the instruction. -/
theorem fetchByte_eq (s : State) (k : Nat) :
    fetchByte s k = if s.pc.toNat + k < 256 then .ok (s.byteAt (s.pc.toNat + k))
      else .error ⟨.memBounds, (s.pc.toNat + k : Nat)⟩ := by
  rw [fetchByte, ← Nat.cast_add, memRead_natCast]
  rfl

theorem fetchByte_ok_iff {k : Nat} {b : Byte} :
    fetchByte s k = .ok b ↔ s.pc.toNat + k < 256 ∧ s.byteAt (s.pc.toNat + k) = b := by
  rw [fetchByte_eq]
  split_ifs with h <;> simp [h]

/-- Fetch answers an instruction exactly when its encoding stands at `pc`, wholly inside memory. -/
theorem fetch_ok_iff {i : Instr} :
    fetch s = .ok i ↔ ∀ k (hk : k < (encode i).length),
      s.pc.toNat + k < 256 ∧ s.byteAt (s.pc.toNat + k) = (encode i)[k] := by
  constructor
  · exact fun h k hk => fetchByte_ok_iff.1 (read_of_decodeFrom h k hk)
  · exact fun h => decodeFrom_encode fun k hk => fetchByte_ok_iff.2 (h k hk)

/-- Fetch past the end of memory. -/
theorem fetch_past (h : 256 ≤ s.pc.toNat) : fetch s = .error ⟨.memBounds, s.pc.toNat⟩ := by
  rw [fetch, decodeFrom_eq, fetchByte_eq, if_neg (by omega)]
  rfl

/-- Fetch of an unknown opcode byte. -/
theorem fetch_unknown (h : s.pc.toNat < 256) (hop : decodeOpcode (s.byteAt s.pc.toNat) = none) :
    fetch s = .error ⟨.unknownOpcode, (s.byteAt s.pc.toNat).toNat⟩ := by
  rw [fetch, decodeFrom_eq, fetchByte_eq, if_pos (by omega)]
  simp only [Nat.add_zero, hop]
  rfl

/-- Operand fetch past the end of memory: the first failing address is 256. -/
theorem fetch_operand_past {k : OpKind} (h : s.pc.toNat < 256) (hop : s.byteAt s.pc.toNat = k.opcode)
    (hw : 256 < s.pc.toNat + opWidth k.opcode) : fetch s = .error ⟨.memBounds, 256⟩ := by
  have hpos := opWidth_opcode_pos k
  rw [fetch, decodeFrom_eq, fetchByte_eq, if_pos (by omega)]
  simp only [Nat.add_zero, hop, decodeOpcode_opcode, readOwned, decide_eq_true_eq]
  rw [if_pos (by omega), fetchByte_eq]
  by_cases h1 : s.pc.toNat + 1 < 256
  · rw [if_pos h1]
    simp only
    rw [if_pos (by omega), fetchByte_eq, if_neg (by omega)]
    have : s.pc.toNat + 2 = 256 := by omega
    simp [this]
  · rw [if_neg h1]
    have : s.pc.toNat + 1 = 256 := by omega
    simp [this]

/-- Fetch of a recognised opcode whose bytes all lie inside memory. -/
theorem fetch_known {k : OpKind} (hop : s.byteAt s.pc.toNat = k.opcode)
    (hw : s.pc.toNat + opWidth k.opcode ≤ 256) :
    fetch s = .ok (k.instr (s.byteAt (s.pc.toNat + 1)) (s.byteAt (s.pc.toNat + 2))) := by
  rw [fetch_ok_iff]
  intro j hj
  rw [length_encode_instr] at hj
  have hpos := opWidth_opcode_pos k
  refine ⟨by omega, ?_⟩
  simp only [encode_instr, List.getElem_take]
  obtain rfl | rfl | rfl : j = 0 ∨ j = 1 ∨ j = 2 := by omega
  · exact hop
  · rfl
  · rfl

/-- Everything fetch can answer. -/
theorem fetch_cases (s : State) :
    (256 ≤ s.pc.toNat ∧ fetch s = .error ⟨.memBounds, s.pc.toNat⟩) ∨
    (s.pc.toNat < 256 ∧ decodeOpcode (s.byteAt s.pc.toNat) = none ∧
      fetch s = .error ⟨.unknownOpcode, (s.byteAt s.pc.toNat).toNat⟩) ∨
    (∃ k : OpKind, s.pc.toNat < 256 ∧ s.byteAt s.pc.toNat = k.opcode ∧ 256 < s.pc.toNat + opWidth k.opcode ∧
      fetch s = .error ⟨.memBounds, 256⟩) ∨
    (∃ k : OpKind, s.byteAt s.pc.toNat = k.opcode ∧ s.pc.toNat + opWidth k.opcode ≤ 256 ∧
      fetch s = .ok (k.instr (s.byteAt (s.pc.toNat + 1)) (s.byteAt (s.pc.toNat + 2)))) := by
  by_cases h : 256 ≤ s.pc.toNat
  · exact .inl ⟨h, fetch_past h⟩
  · cases hk : decodeOpcode (s.byteAt s.pc.toNat) with
    | none => exact .inr (.inl ⟨by omega, rfl, fetch_unknown (by omega) hk⟩)
    | some k =>
      have hop := decodeOpcode_eq_some.1 hk
      by_cases hw : s.pc.toNat + opWidth k.opcode ≤ 256
      · exact .inr (.inr (.inr ⟨k, hop, hw, fetch_known hop hw⟩))
      · exact .inr (.inr (.inl ⟨k, by omega, hop, by omega, fetch_operand_past (by omega) hop (by omega)⟩))

/-! ### Step -/

theorem step_running {i : Instr} (h : s.run = .running) (hf : fetch s = .ok i) : step s = exec i s := by
  simp only [step, h, hf]

theorem step_fetch_error {f : FaultReport} (h : s.run = .running) (hf : fetch s = .error f) :
    step s = .next (s.takeFault f) := by
  simp only [step, h, hf, State.finish_error]

theorem step_terminal (h : s.run ≠ .running) : step s = .next s := by
  unfold step
  cases hr : s.run <;> simp_all

/-- The faults a step can take, with their info. -/
inductive StepRaises (s : State) : FaultReport → Prop where
  | pastEnd (h : 256 ≤ s.pc.toNat) : StepRaises s ⟨.memBounds, s.pc.toNat⟩
  | operand (h : s.pc.toNat < 256) : StepRaises s ⟨.memBounds, 256⟩
  | unknown (h : s.pc.toNat < 256) : StepRaises s ⟨.unknownOpcode, (s.byteAt s.pc.toNat).toNat⟩
  | instr {f : FaultReport} {i : Instr} (hf : fetch s = .ok i) (h : Raises s i f) : StepRaises s f

/-- Inversion of step from RUNNING: the fetched instruction completes, or a fault of the start state is taken. -/
theorem step_cases {t : State} (hrun : s.run = .running) (h : step s = .next t) :
    (∃ i, fetch s = .ok i ∧ Completes s i t) ∨ ∃ f, StepRaises s f ∧ t = s.takeFault f := by
  obtain ⟨hp, hf⟩ | ⟨hp, -, hf⟩ | ⟨k, hp, -, -, hf⟩ | ⟨k, -, -, hf⟩ := fetch_cases s
  · rw [step_fetch_error hrun hf] at h
    exact .inr ⟨_, .pastEnd hp, (Host.Outcome.next.inj h).symm⟩
  · rw [step_fetch_error hrun hf] at h
    exact .inr ⟨_, .unknown hp, (Host.Outcome.next.inj h).symm⟩
  · rw [step_fetch_error hrun hf] at h
    exact .inr ⟨_, .operand hp, (Host.Outcome.next.inj h).symm⟩
  · rw [step_running hrun hf] at h
    obtain hc | ⟨f, hr, ht⟩ := exec_cases h
    · exact .inl ⟨_, hf, hc⟩
    · exact .inr ⟨f, .instr hf hr, ht⟩

/-- The opcode byte of a fetched instruction stands at `pc`, and the instruction lies inside memory. -/
theorem fetch_opcode {i : Instr} (h : fetch s = .ok i) :
    s.byteAt s.pc.toNat = i.opcode ∧ s.pc.toNat + i.width ≤ 256 := by
  have hk := fetch_ok_iff.1 h
  obtain ⟨o1, o2, hi⟩ := i.eq_instr
  have hlen : (encode i).length = i.width := by rw [hi, length_encode_instr]; simp [Instr.width, Instr.opcode]
  have hpos := opWidth_opcode_pos i.kind
  change 1 ≤ i.width ∧ i.width ≤ 3 at hpos
  constructor
  · have h0 := (hk 0 (by omega)).2
    rw [Nat.add_zero] at h0
    rw [h0]
    cases i <;> rfl
  · have := (hk (i.width - 1) (by omega)).1
    omega

/-- No step ends in the state reset leaves: the generic advance leaves `pc` above 0, CALL leaves a return address in
memory, RET its own opcode byte, and HLT and a fault a terminal state. -/
theorem step_ne_reset {s t : State} (h : step s = .next t) : t ≠ State.reset := by
  rintro rfl
  by_cases hrun : s.run = .running
  · obtain ⟨i, hf, hc⟩ | ⟨f, -, ht⟩ := step_cases hrun h
    · obtain ⟨hop, hw⟩ := fetch_opcode hf
      have hpos : 1 ≤ i.width := (opWidth_opcode_pos i.kind).1
      have adv : ∀ {n : Nat}, 1 ≤ n → n ≤ 3 → State.reset.pc ≠ s.pc + BitVec.ofNat 9 n := by
        intro n h1 h3 h0
        have h2 := congrArg BitVec.toNat h0
        simp [State.reset] at h2
        omega
      generalize hr : State.reset = r at hc
      cases hc with
      | ret hb ht =>
        have hm : s.mem = [] := by have := congrArg State.mem hr; exact this.symm
        rw [State.byteAt, hm] at hop
        exact absurd (show (0 : Byte) = opcRet from hop) (by decide)
      | call hr' ht hpc =>
        have hm : ([] : Memory) = _ := congrArg State.mem hr
        refine Memory.write_ne_nil ?_ hm.symm
        intro h0
        have := congrArg BitVec.toNat h0
        simp at this
        omega
      | hlt => exact absurd (congrArg State.run hr) (by simp [State.reset])
      | _ => exact adv (by decide) (by decide) (congrArg State.pc hr)
    · exact absurd (congrArg State.run ht) (by simp [State.reset])
  · rw [step_terminal hrun] at h
    exact hrun (by rw [Host.Outcome.next.inj h]; rfl)

/-! ### Runs -/

theorem runsTo_zero {t : State} : runsTo 0 s t ↔ t = s := by
  constructor
  · exact fun h => (Host.Outcome.next.inj h).symm
  · rintro rfl; rfl

/-- A run of `k + 1` steps is a step and then a run of `k`. -/
theorem runsTo_succ {k : Nat} {t : State} : runsTo (k + 1) s t ↔ ∃ u, step s = .next u ∧ runsTo k u t := by
  unfold runsTo
  cases hs : step s with
  | next u =>
    have hrun : Sys2Proof.core.run (k + 1) s = Sys2Proof.core.run k u := by
      simp only [Host.Core.run, show Sys2Proof.core.step s = .next u from hs]
    simp [hrun]
  | fault r => nomatch r
  | refused r =>
    have hrun : Sys2Proof.core.run (k + 1) s = .refused r := by
      simp only [Host.Core.run, show Sys2Proof.core.step s = .refused r from hs]
    simp [hrun]

/-- A property that every step keeps holds along every run. -/
theorem runsTo_invariant {P : State → Prop} (hP : ∀ s t, P s → step s = .next t → P t) {k : Nat} {t : State}
    (h0 : P s) (h : runsTo k s t) : P t := by
  induction k generalizing s with
  | zero => exact runsTo_zero.1 h ▸ h0
  | succ k ih =>
    obtain ⟨u, hu, hk⟩ := runsTo_succ.1 h
    exact ih (hP s u h0 hu) hk

end Sys2Proof.Machine
end

