-- ==== Sys2Proof/Tests/Slice0.lean ====
section
/-! SUPPORT. Tests and witnesses. Expected results are taken from spec/95_test_vectors.md (the vector is named beside
each test) or written out from the encodings of spec/30_encoding.md. A theorem `witness_…` shows a concrete state and
operands that meet the hypotheses of an obligation, clause by clause at boundary values. -/

namespace Sys2Proof.Tests

open Sys2Proof.Machine Sys2Proof.Claims

/-! ### Helpers -/

/-- The reset state with bytes placed at an address and `pc` there (spec/95_test_vectors.md section 0). -/
def place (a : Nat) (bytes : List Byte) : State :=
  { State.reset with mem := storeBytes [] a bytes, pc := BitVec.ofNat 9 a }

/-- `place`, with one register set. -/
def placeReg (a : Nat) (bytes : List Byte) (r : RegIx) (v : Byte) : State := (place a bytes).setReg r v

/-- `placeReg` for the stack pointer, with one byte of memory set. -/
def placeSp (a : Nat) (bytes : List Byte) (sp : Byte) (at_ : Nat) (b : Byte) : State :=
  { (place a bytes).setSp sp with mem := (place a bytes).mem.write at_ b }

/-- An outcome is the next state `t`. -/
def nextIs (o : Host.Outcome State Fault Refusal) (t : State) : Bool :=
  match o with
  | .next u => decide (u = t)
  | .fault _ => false
  | .refused _ => false

/-- The state after a step. -/
def after (s : State) : State :=
  match step s with
  | .next t => t
  | .fault _ => s
  | .refused _ => s

/-! ### WellFormed: an ill-formed term for each check, refused -/

theorem test_wellFormed_refuses_ldi_d : (Instr.ldi 8 0).wellFormed = false := by decide
theorem test_wellFormed_refuses_prn : (Instr.prn 8).wellFormed = false := by decide
theorem test_wellFormed_refuses_add_d : (Instr.add 9 0).wellFormed = false := by decide
theorem test_wellFormed_refuses_add_src : (Instr.add 0 12).wellFormed = false := by decide
theorem test_wellFormed_refuses_sub_d : (Instr.sub 8 0).wellFormed = false := by decide
theorem test_wellFormed_refuses_sub_src : (Instr.sub 0 8).wellFormed = false := by decide
theorem test_wellFormed_refuses_mul_d : (Instr.mul 128 0).wellFormed = false := by decide
theorem test_wellFormed_refuses_mul_src : (Instr.mul 0 8).wellFormed = false := by decide
theorem test_wellFormed_refuses_push : (Instr.push 8).wellFormed = false := by decide
theorem test_wellFormed_refuses_pop : (Instr.pop 9).wellFormed = false := by decide
theorem test_wellFormed_refuses_call : (Instr.call 255).wellFormed = false := by decide
theorem test_wellFormed_accepts_any_immediate : (Instr.ldi 7 200).wellFormed = true := by decide

/-! ### Decoding: every constructor by a word written out from R56, and rejections by name -/

theorem test_decode_ldi : decode [0b10000010, 0b00000011, 0b01001101] = .ok (.ldi 3 77, []) := by decide
theorem test_decode_prn : decode [0b01000111, 0b00000111] = .ok (.prn 7, []) := by decide
theorem test_decode_add : decode [0b10100000, 0b00000001, 0b00000010] = .ok (.add 1 2, []) := by decide
theorem test_decode_sub : decode [0b10100001, 0b00000001, 0b00000010] = .ok (.sub 1 2, []) := by decide
theorem test_decode_mul : decode [0b10100010, 0b00000001, 0b00000010] = .ok (.mul 1 2, []) := by decide
theorem test_decode_push : decode [0b01000101, 0b00000110] = .ok (.push 6, []) := by decide
theorem test_decode_pop : decode [0b01000110, 0b00000101] = .ok (.pop 5, []) := by decide
theorem test_decode_call : decode [0b01010000, 0b00000100, 1] = .ok (.call 4, [1]) := by decide
theorem test_decode_ret : decode [0b00010001, 1] = .ok (.ret, [1]) := by decide
theorem test_decode_hlt : decode [0b00000001, 2] = .ok (.hlt, [2]) := by decide

/-- The operand bytes of a table word: `o1` is bits 15..8, `o2` bits 23..16. -/
theorem test_decodeTableWord_order : decodeTableWord 24 0xC80082 = some (.ldi 0 200) := by decide

/-- An `nbits` shorter than the instruction leaves operand words of zeros. -/
theorem test_decodeTableWord_short : decodeTableWord 8 0xFFFFA0 = some (.add 0 0) := by decide

/-- The unknown bytes spec/95_test_vectors.md section 3 lists for a decoder test. -/
theorem test_decodeOpcode_unknown :
    [0x00, 0xFF, 0x02, 0x10, 0x12, 0x44, 0x48, 0x4F, 0x51, 0x81, 0x83, 0x9F, 0xA3, 0x41, 0xC1, 0x91, 0xD1, 0x05, 0x85,
     0xC5, 0x06, 0x86, 0xC6, 0x07, 0x87, 0xC7, 0x90, 0xD0, 0x42, 0xC2, 0x20, 0x60, 0xE0, 0x21, 0x61, 0xE1, 0x22, 0x62,
     0xE2].all (fun op => (decodeOpcode op).isNone) = true := by decide

theorem test_decode_rejects_unknown : decode [0x42, 0, 8] = .error (.unknownOpcode 0x42) := by decide
theorem test_decode_rejects_missing : decode [0xA0, 1] = .error (.missingByte 2) := by decide

/-- Assembly text, R61. -/
theorem test_assembly : (Instr.ldi 0 8).assembly = "LDI R0, 8" ∧ (Instr.add 0 1).assembly = "ADD R0, R1" := by decide

/-! ### Steps, at most two per instruction -/

/-- Vector L5: LDI at 253 leaves `pc` at 256. -/
theorem test_ldi_last_fit :
    nextIs (step (place 253 [0x82, 1, 5])) { (place 253 [0x82, 1, 5]).setReg 1 5 with pc := 256 } = true := by decide

/-- Vector L9: MemBounds comes before RegIndex. -/
theorem test_ldi_bounds_first :
    nextIs (step (place 254 [0x82, 9])) (faulted (place 254 [0x82, 9]) .memBounds 256) = true := by decide

/-- Vector N2: PRN R7 prints the stack pointer. -/
theorem test_prn_stack_pointer :
    nextIs (step (place 0 [0x47, 7])) { place 0 [0x47, 7] with out := [244], pc := 2 } = true := by decide

/-- Vector N6: output is appended. -/
theorem test_prn_appends :
    nextIs (step { place 0 [0x47, 2] with out := [7] }) { place 0 [0x47, 2] with out := [7, 0], pc := 2 } = true := by
  decide

/-- Vector A3: source and destination the same, with a wrap. -/
theorem test_add_same_register :
    nextIs (step (placeReg 0 [0xA0, 2, 2] 2 128)) { place 0 [0xA0, 2, 2] with pc := 3 } = true := by decide

/-- Vector A4: the first bad operand is reported. -/
theorem test_add_first_bad_operand :
    nextIs (step (place 10 [0xA0, 9, 12])) (faulted (place 10 [0xA0, 9, 12]) .regIndex 9) = true := by decide

/-- Vector B1: the destination is the left operand, and the difference wraps. -/
theorem test_sub_wraps :
    nextIs (step ((placeReg 0 [0xA1, 2, 3] 2 10).setReg 3 20))
      { (placeReg 0 [0xA1, 2, 3] 2 246).setReg 3 20 with pc := 3 } = true := by decide

/-- Vector B6: the second operand is checked. -/
theorem test_sub_second_bad_operand :
    nextIs (step (place 0 [0xA1, 0, 8])) (faulted (place 0 [0xA1, 0, 8]) .regIndex 8) = true := by decide

/-- Vector M4: the low byte of the product. -/
theorem test_mul_low_byte :
    nextIs (step ((placeReg 0 [0xA2, 0, 1] 0 200).setReg 1 3))
      { (placeReg 0 [0xA2, 0, 1] 0 88).setReg 1 3 with pc := 3 } = true := by decide

/-- Vector M3. -/
theorem test_mul_all_ones :
    nextIs (step ((placeReg 0 [0xA2, 0, 1] 0 255).setReg 1 255))
      { (placeReg 0 [0xA2, 0, 1] 0 1).setReg 1 255 with pc := 3 } = true := by decide

/-- Vector U2: PUSH R7 stores the decremented stack pointer. -/
theorem test_push_stack_pointer :
    nextIs (step (place 0 [0x45, 7])) { placeSp 0 [0x45, 7] 0xF3 0xF3 0xF3 with pc := 2 } = true := by decide

/-- Vector U5: RegIndex comes before StackBounds. -/
theorem test_push_register_first :
    nextIs (step (placeReg 0 [0x45, 8] 7 0)) (faulted (placeReg 0 [0x45, 8] 7 0) .regIndex 8) = true := by decide

/-- Vector O3: POP R7 increments the popped byte. -/
theorem test_pop_stack_pointer :
    nextIs (step (placeSp 0 [0x46, 7] 0xF0 0xF0 0x10)) { placeSp 0 [0x46, 7] 0x11 0xF0 0x10 with pc := 2 } = true := by
  decide

/-- Vector O4: the info of POP R7's fault is the popped byte. -/
theorem test_pop_popped_byte_fault :
    nextIs (step (placeSp 0 [0x46, 7] 0xF0 0xF0 0xF4))
      (faulted (placeSp 0 [0x46, 7] 0xF0 0xF0 0xF4) .stackBounds 0xF4) = true := by decide

/-- Vector C2: CALL R7 jumps to the decremented stack pointer. -/
theorem test_call_stack_pointer :
    nextIs (step (place 6 [0x50, 7])) { placeSp 6 [0x50, 7] 0xF3 0xF3 8 with pc := 243 } = true := by decide

/-- Vector C4: the return address 256 does not fit. -/
theorem test_call_byte_range :
    nextIs (step (placeReg 254 [0x50, 0] 0 9)) (faulted (placeReg 254 [0x50, 0] 0 9) .byteRange 256) = true := by decide

/-- Vector T3: RET at the last address. -/
theorem test_ret_last_address :
    nextIs (step (placeSp 255 [0x11] 0x80 0x80 0x40)) { placeSp 255 [0x11] 0x81 0x80 0x40 with pc := 64 } = true := by
  decide

/-- Vector T2: RET on the empty stack. -/
theorem test_ret_empty_stack :
    nextIs (step (place 0 [0x11])) (faulted (place 0 [0x11]) .stackBounds 0xF4) = true := by decide

/-- Vector H2: HLT at the last address. -/
theorem test_hlt_last_address :
    nextIs (step (place 255 [0x01])) { place 255 [0x01] with run := .halted } = true := by decide

/-- Vector H3: no step after HLT. -/
theorem test_hlt_no_step_after :
    nextIs (step { place 5 [0x01] with run := .halted }) { place 5 [0x01] with run := .halted } = true := by decide

/-- Vector X6: an unknown byte at 255 is UnknownOpcode, not MemBounds. -/
theorem test_unknown_at_end :
    nextIs (step (place 255 [0xC0])) (faulted (place 255 [0xC0]) .unknownOpcode 0xC0) = true := by decide

/-- Vector F1: fetch at 256. -/
theorem test_fetch_past_memory : nextIs (step (place 256 [])) (faulted (place 256 []) .memBounds 256) = true := by decide

/-- Vector G4, the load: memory holds the image, all else is as after reset. -/
theorem test_boot : nextIs (boot [0x82, 0, 8]) { State.reset with mem := [(0, 0x82), (2, 8)] } = true := by decide

/-- A table word placed for the next step changes only memory of a running state. -/
theorem test_withFetchWord :
    State.reset.withFetchWord 24 0x080082 = { State.reset with mem := [(0, 0x82), (2, 8)] } := by decide

/-- Writing the byte an unlisted address reads as removes the entry. -/
theorem test_memory_write_zero_removes : Memory.write [(3, 7), (9, 1)] 3 0 = [(9, 1)] := by decide

/-! ### Witnesses: encoding and step -/

theorem witness_DecodedBytesAreTheEncoding : decode [0x11, 9] = .ok (.ret, [9]) := by decide

theorem witness_StepRunsDecodedInstruction :
    (place 253 [0x82, 7, 255]).run = .running ∧ decode (place 253 [0x82, 7, 255]).codeBytes = .ok (.ldi 7 255, []) := by
  decide

theorem witness_UnknownByteFaultsAtOnce :
    (0x02 : Byte) ∉ definedOpcodes ∧ (0xC2 : Byte) ∉ definedOpcodes ∧
    (place 255 [0xFF]).run = .running ∧ (place 255 [0xFF]).pc.toNat < 256 ∧
    opcodeAt (place 255 [0xFF]) ∉ definedOpcodes := by decide

theorem witness_OperandFetchReadsOwnedBytesOnly :
    ((place 253 [0xA0, 0, 0]).pc.toNat < 256 ∧ decodeOpcode (opcodeAt (place 253 [0xA0, 0, 0])) = some .add ∧
      (place 253 [0xA0, 0, 0]).pc.toNat + ((opcodeAt (place 253 [0xA0, 0, 0])).toNat / 64 + 1) ≤ 256) ∧
    ((place 255 [0x11]).pc.toNat < 256 ∧ decodeOpcode (opcodeAt (place 255 [0x11])) = some .ret ∧
      (place 255 [0x11]).pc.toNat + ((opcodeAt (place 255 [0x11])).toNat / 64 + 1) ≤ 256) ∧
    ((place 254 [0xA0, 0]).pc.toNat < 256 ∧ decodeOpcode (opcodeAt (place 254 [0xA0, 0])) = some .add ∧
      256 < (place 254 [0xA0, 0]).pc.toNat + ((opcodeAt (place 254 [0xA0, 0])).toNat / 64 + 1)) := by decide

theorem witness_TerminalStatesKeepAllState :
    (State.reset.setRun .halted).run ≠ .running ∧ (State.reset.setRun .faulted).run ≠ .running := by decide

theorem witness_StepFaultsByThePriorityList :
    (place 0 [0x50, 8]).run = .running ∧
    firstFault (place 256 []) = some (.memBounds, 256) ∧
    firstFault (place 255 [0xC0]) = some (.unknownOpcode, 0xC0) ∧
    firstFault (place 255 [0x47]) = some (.memBounds, 256) ∧
    firstFault (place 254 [0x82, 9]) = some (.memBounds, 256) ∧
    firstFault (place 0 [0xA0, 9, 12]) = some (.regIndex, 9) ∧
    firstFault (place 0 [0xA0, 1, 12]) = some (.regIndex, 12) ∧
    firstFault (placeReg 254 [0x50, 0] 7 0) = some (.stackBounds, 0) ∧
    firstFault (placeSp 0 [0x46, 7] 0xF0 0xF0 0xF4) = some (.stackBounds, 0xF4) ∧
    firstFault (placeReg 0 [0x46, 0] 7 0xFF) = some (.stackBounds, 0xFF) ∧
    firstFault (place 0 [0x11]) = some (.stackBounds, 0xF4) ∧
    firstFault (place 254 [0x50, 0]) = some (.byteRange, 256) ∧
    firstFault (place 253 [0x50, 0]) = none := by decide

theorem witness_TakingAFaultIsPrecise :
    (place 9 [0xFF]).run = .running ∧ step (place 9 [0xFF]) = .next (after (place 9 [0xFF])) ∧
    (after (place 9 [0xFF])).run = .faulted := ⟨rfl, rfl, rfl⟩

/-! ### Witnesses: reset, load and runs -/

/-- A state that meets the invariant and is not the reset state, with `pc` at its greatest value. -/
theorem witness_invariant_state : (place 256 []).Inv ∧ (place 256 []).fault = none ∧
    step (place 256 []) = .next (after (place 256 [])) :=
  ⟨⟨rfl, by decide, by decide, fun f h => nomatch h⟩, rfl, rfl⟩

theorem witness_LoadPortStoresTheImage :
    (List.replicate 256 (1 : Byte)).length ≤ 256 ∧ 256 < (List.replicate 257 (1 : Byte)).length ∧
    0 < (List.replicate 256 (1 : Byte)).length ∧ ([] : List Byte).length ≤ 0 := by
  rw [List.length_replicate, List.length_replicate, List.length_nil]; omega

theorem witness_BootedRunsMeetTheInvariant :
    boot [0x01] = .next (place 0 [0x01]) ∧ runsTo 1 (place 0 [0x01]) (after (place 0 [0x01])) := ⟨rfl, rfl⟩

theorem test_loadPort_refused_after_a_step :
    loadPort [0x01] (after (place 0 [0x82, 0, 8])) = .refused .loadPortClosed ∧
    loadPort [0x01] (after (place 0 [0x01])) = .refused .loadPortClosed ∧
    loadPort [0x01] (after State.reset) = .refused .loadPortClosed :=
  ⟨loadPort_closed _ (by decide), loadPort_closed _ (by decide), loadPort_closed _ (by decide)⟩

theorem test_loadPort_refused_twice : loadPort [0x82] (place 0 [0x01]) = .refused .loadPortClosed :=
  loadPort_closed _ (by decide)

theorem witness_LoadPortClosesAtTheFirstStep :
    runsTo 1 (place 255 [0x01]) (after (place 255 [0x01])) ∧
    (boot [0, 1] = .next (place 0 [0, 1]) ∧ ∃ b ∈ ([0, 1] : List Byte), b ≠ 0) := ⟨rfl, rfl, by decide⟩

theorem witness_HostReadsAllStateOnlyAfterTheRun :
    ((place 0 []).run = .running ∧ (place 9 [0xFF]).run = .running ∧ (place 9 [0xFF]).fault = (place 0 []).fault ∧
      (place 9 [0xFF]).out = (place 0 []).out ∧ place 9 [0xFF] ≠ place 0 []) ∧
    (after (place 255 [0x01])).run ≠ .running := by decide

/-! ### Witnesses: memory -/

theorem witness_CheckedReadFaultsOutsideMemory :
    ((0 : Int) ≤ 255 ∧ (255 : Int) < 256) ∧ ((-1 : Int) < 0 ∨ (256 : Int) ≤ -1) ∧ ((256 : Int) < 0 ∨ (256 : Int) ≤ 256) := by
  decide

theorem witness_CheckedWriteFaultsOrStores :
    ((256 : Int) < 0 ∨ (256 : Int) ≤ 256) ∧ ((0 : Int) ≤ 255 ∧ (255 : Int) < 256 ∧ 255 < 256) ∧
    ((0 : Int) ≤ 0 ∧ (0 : Int) < 256 ∧ 255 ≤ 255 ∧ Memory.wf [(0, 1), (255, 7)] = true) := by decide

theorem witness_CanonicalMemoriesReadingAlikeAreEqual :
    Memory.wf [(0, 1), (255, 7)] = true ∧ Memory.wf (Memory.write [(255, 7)] 0 1) = true ∧
    ∀ a, Memory.read [(0, 1), (255, 7)] a = Memory.read (Memory.write [(255, 7)] 0 1) a :=
  ⟨by decide, by decide, fun _ => rfl⟩

/-! ### Witnesses: the clauses of each instruction's statement -/

/-- The bytes stand at `pc`, ending at the last address of memory, in a running state. -/
def codeFits (s : State) (bytes : List Byte) : Prop := s.run = .running ∧ HasCode s bytes

theorem witness_fetch_past : (place 256 []).run = .running ∧ 256 ≤ (place 256 []).pc.toNat := by decide

theorem witness_fetch_ldi : codeFits (place 253 [0x82, 7, 255]) (encode (.ldi 7 255)) := by
  unfold codeFits HasCode; decide
theorem witness_fetch_prn : codeFits (place 254 [0x47, 7]) (encode (.prn 7)) := by unfold codeFits HasCode; decide
theorem witness_fetch_add : codeFits (place 253 [0xA0, 7, 0]) (encode (.add 7 0)) := by
  unfold codeFits HasCode; decide
theorem witness_fetch_sub : codeFits (place 253 [0xA1, 7, 0]) (encode (.sub 7 0)) := by
  unfold codeFits HasCode; decide
theorem witness_fetch_mul : codeFits (place 253 [0xA2, 7, 0]) (encode (.mul 7 0)) := by
  unfold codeFits HasCode; decide
theorem witness_fetch_push : codeFits (place 254 [0x45, 7]) (encode (.push 7)) := by unfold codeFits HasCode; decide
theorem witness_fetch_pop : codeFits (place 254 [0x46, 7]) (encode (.pop 7)) := by unfold codeFits HasCode; decide
theorem witness_fetch_call : codeFits (place 254 [0x50, 7]) (encode (.call 7)) := by unfold codeFits HasCode; decide
theorem witness_fetch_ret : codeFits (place 255 [0x11]) (encode .ret) := by unfold codeFits HasCode; decide
theorem witness_fetch_hlt : codeFits (place 255 [0x01]) (encode .hlt) := by unfold codeFits HasCode; decide

/-- The hypotheses of `OperandFetchFaults` for an opcode byte, with the instruction's last byte just outside memory. -/
def operandOutside (s : State) (i : Instr) : Prop :=
  s.run = .running ∧ s.pc.toNat < 256 ∧ 256 < s.pc.toNat + (encode i).length ∧ (encode i).head? = some (opcodeAt s)

theorem witness_operand_fetch :
    operandOutside (place 254 [0x82, 9]) (.ldi 9 0) ∧ operandOutside (place 255 [0x47]) (.prn 0) ∧
    operandOutside (place 254 [0xA0, 0]) (.add 0 0) ∧ operandOutside (place 255 [0xA1]) (.sub 0 0) ∧
    operandOutside (place 254 [0xA2, 0]) (.mul 0 0) ∧ operandOutside (place 255 [0x45]) (.push 0) ∧
    operandOutside (place 255 [0x46]) (.pop 0) ∧ operandOutside (place 255 [0x50]) (.call 0) := by
  unfold operandOutside; decide

/-- LDI, PRN, ADD, SUB and MUL: a valid operand at its greatest value, and the least invalid one. -/
theorem witness_register_operands :
    (7 : Byte).toNat = (7 : RegIx).val ∧ (0 : Byte).toNat = (0 : RegIx).val ∧ 7 < (8 : Byte).toNat ∧
    ((7 : Byte).toNat ≤ 7 ∧ 7 < (8 : Byte).toNat) := by decide

/-- SUB's two value clauses meet at equal operands, which fall under the first alone. -/
theorem witness_sub_values :
    ((placeReg 0 [] 1 5).setReg 2 5).reg 2 ≤ ((placeReg 0 [] 1 5).setReg 2 5).reg 1 ∧
    (place 0 []).reg 0 < (place 0 []).reg 7 := by decide

theorem witness_StackPointerMovesInsideItsLimits :
    (0 : Byte).toNat = 0 ∧ 1 ≤ (1 : Byte).toNat ∧ (0xF3 : Byte).toNat < 0xF4 ∧ 0xF4 ≤ (0xF4 : Byte).toNat := by decide

theorem witness_push :
    ((7 : Byte).toNat = (7 : RegIx).val ∧ spDec ((placeReg 10 [] 7 1).reg 7) = .ok 0 ∧
      (placeReg 10 [] 7 1).mem.wf = true) ∧
    ((7 : Byte).toNat ≤ 7 ∧ (placeReg 10 [] 7 0).reg 7 = 0) ∧ 7 < (8 : Byte).toNat := by decide

theorem witness_pop :
    ((6 : Byte).toNat = (6 : RegIx).val ∧ (6 : RegIx) ≠ 7 ∧ ((placeReg 0 [] 7 0xF3).reg 7).toNat < 0xF4) ∧
    (((placeSp 0 [] 0xF0 0xF0 0xF3).byteAt ((placeSp 0 [] 0xF0 0xF0 0xF3).reg 7).toNat).toNat < 0xF4) ∧
    ((6 : Byte).toNat < 7 ∧ 0xF4 ≤ ((place 0 []).reg 7).toNat) ∧
    (0xF4 ≤ ((placeSp 0 [] 0xF0 0xF0 0xF4).byteAt ((placeSp 0 [] 0xF0 0xF0 0xF4).reg 7).toNat).toNat) ∧
    7 < (8 : Byte).toNat := by decide

theorem witness_call :
    ((7 : Byte).toNat = (7 : RegIx).val ∧ spDec ((placeReg 253 [] 7 1).reg 7) = .ok 0 ∧
      (placeReg 253 [] 7 1).pc.toNat + 2 ≤ 255 ∧ (placeReg 253 [] 7 1).mem.wf = true) ∧
    ((7 : Byte).toNat ≤ 7 ∧ 1 ≤ ((placeReg 254 [] 7 1).reg 7).toNat ∧ 255 < (placeReg 254 [] 7 1).pc.toNat + 2) ∧
    ((7 : Byte).toNat ≤ 7 ∧ (placeReg 254 [] 7 0).reg 7 = 0) ∧ 7 < (8 : Byte).toNat := by decide

theorem witness_ret :
    ((placeReg 0 [] 7 0xF3).reg 7).toNat < 0xF4 ∧ 0xF4 ≤ ((place 0 []).reg 7).toNat := by decide

theorem witness_IllFormedInstructionTakesRegIndex :
    (Instr.add 1 12).registerOperands.find? (fun b => decide (7 < b.toNat)) = some 12 ∧
    (Instr.add 9 12).registerOperands.find? (fun b => decide (7 < b.toNat)) = some 9 ∧
    (Instr.call 8).wellFormed = false ∧ (7 : Byte).toNat ≤ 7 := by decide

/-! ### Witnesses: whole-machine rules -/

theorem witness_RegistersChangeOnlyWhereNamed :
    (step (place 0 [0x82, 3, 77]) = .next (after (place 0 [0x82, 3, 77])) ∧
      (after (place 0 [0x82, 3, 77])).reg 3 ≠ (place 0 [0x82, 3, 77]).reg 3) ∧
    (step (place 0 [0x45, 0]) = .next (after (place 0 [0x45, 0])) ∧
      (after (place 0 [0x45, 0])).reg 7 ≠ (place 0 [0x45, 0]).reg 7) :=
  ⟨⟨rfl, by decide⟩, ⟨rfl, by decide⟩⟩

theorem witness_OutputChangesOnlyByPrn :
    step (place 0 [0x47, 7]) = .next (after (place 0 [0x47, 7])) ∧
    (after (place 0 [0x47, 7])).out = [0xF4] := ⟨rfl, by decide⟩

theorem witness_MemoryChangesOnlyByPushAndCall :
    (place 0 [0x50, 0]).mem.wf = true ∧ step (place 0 [0x50, 0]) = .next (after (place 0 [0x50, 0])) ∧
    (after (place 0 [0x50, 0])).byteAt 0xF3 ≠ (place 0 [0x50, 0]).byteAt 0xF3 := ⟨by decide, rfl, by decide⟩

/-- A running state, its step, and a step that does not fault. -/
def steps (s : State) : Prop := s.run = .running ∧ step s = .next (after s) ∧ (after s).run ≠ .faulted

/-- `steps` from facts the kernel evaluates. -/
theorem steps_of (s : State) (h : s.run = .running) (hn : nextIs (step s) (after s) = true)
    (hf : (after s).run ≠ .faulted) : steps s := by
  refine ⟨h, ?_, hf⟩
  revert hn
  cases step s with
  | next u => intro hn; exact congrArg _ (of_decide_eq_true hn)
  | fault f => exact fun hn => nomatch hn
  | refused r => exact fun hn => nomatch hn

theorem witness_PcIsWrittenInThreeWays :
    (steps (place 253 [0x82, 0, 0]) ∧ opcodeAt (place 253 [0x82, 0, 0]) ∉ ([0x50, 0x11, 0x01] : List Byte)) ∧
    (steps (place 0 [0x50, 7]) ∧ opcodeAt (place 0 [0x50, 7]) = 0x50) ∧
    (steps (placeSp 0 [0x11] 0xF3 0xF3 0xFF) ∧ opcodeAt (placeSp 0 [0x11] 0xF3 0xF3 0xFF) = 0x11) ∧
    (steps (place 255 [0x01]) ∧ opcodeAt (place 255 [0x01]) = 0x01) :=
  ⟨⟨steps_of _ rfl (by decide) (by decide), by decide⟩, ⟨steps_of _ rfl (by decide) (by decide), by decide⟩,
    ⟨steps_of _ rfl (by decide) (by decide), by decide⟩, ⟨steps_of _ rfl (by decide) (by decide), by decide⟩⟩

theorem witness_OnlyHltEntersHalted :
    steps (place 255 [0x01]) ∧ (after (place 255 [0x01])).run = .halted := ⟨⟨rfl, rfl, by decide⟩, rfl⟩

theorem witness_NoStepRaisesAluUnsupported :
    step (place 9 [0xFF]) = .next (after (place 9 [0xFF])) ∧
    (after (place 9 [0xFF])).fault = some ⟨.unknownOpcode, 9, 0xFF⟩ ∧
    (place 9 [0xFF]).fault ≠ some ⟨.unknownOpcode, 9, 0xFF⟩ := ⟨rfl, by decide, by decide⟩

theorem witness_StackInstructionsRespectTheLimits :
    (Instr.pop 7).kind ∈ ([.push, .pop, .call, .ret] : List OpKind) ∧
    exec (.pop 7) (placeSp 0 [0x46, 7] 0xFF 0xFF 0xF3) = .next (after (placeSp 0 [0x46, 7] 0xFF 0xFF 0xF3)) :=
  ⟨by decide, rfl⟩

theorem witness_OutputAndRecordAreNeverRead : steps (place 0 [0x47, 7]) := ⟨rfl, rfl, by decide⟩

/-! ### Witnesses: pairs of instructions -/

theorem witness_PushThenPopCopiesTheRegister :
    (2 : Byte).toNat = (2 : RegIx).val ∧ (5 : Byte).toNat = (5 : RegIx).val ∧ (2 : RegIx) ≠ 7 ∧ (5 : RegIx) ≠ 7 ∧
    (placeReg 0 [] 2 99).mem.wf = true ∧ 1 ≤ ((placeReg 0 [] 2 99).reg 7).toNat ∧
    ((placeReg 0 [] 2 99).reg 7).toNat ≤ 0xF4 := by decide

theorem witness_PushThenRetJumps :
    (0 : Byte).toNat = (0 : RegIx).val ∧ (0 : RegIx) ≠ 7 ∧ (placeReg 0 [] 7 1).mem.wf = true ∧
    1 ≤ ((placeReg 0 [] 7 1).reg 7).toNat ∧ ((placeReg 0 [] 7 1).reg 7).toNat ≤ 0xF4 := by decide

/-- The state after the CALL itself stands for the state before the RET. -/
theorem witness_RetResumesAfterTheCall :
    (1 : Byte).toNat = (1 : RegIx).val ∧ (place 253 [0x50, 1]).mem.wf = true ∧ (place 253 [0x50, 1]).pc.toNat ≤ 253 ∧
    1 ≤ ((place 253 [0x50, 1]).reg 7).toNat ∧ ((place 253 [0x50, 1]).reg 7).toNat ≤ 0xF4 ∧
    exec (.call 1) (place 253 [0x50, 1]) = .next (after (place 253 [0x50, 1])) :=
  ⟨by decide, by decide, by decide, by decide, by decide, rfl⟩

theorem witness_StoredByteIsSeenByFetch :
    (0 : Byte).toNat = (0 : RegIx).val ∧ spDec ((placeReg 10 [0x45, 0] 7 1).reg 7) = .ok 0 ∧
    (placeReg 10 [0x45, 0] 7 1).mem.wf = true ∧
    exec (.push 0) (placeReg 10 [0x45, 0] 7 1) = .next (after (placeReg 10 [0x45, 0] 7 1)) ∧
    ((after (placeReg 10 [0x45, 0] 7 1)).setPc 0).mem = (after (placeReg 10 [0x45, 0] 7 1)).mem ∧
    ((after (placeReg 10 [0x45, 0] 7 1)).setPc 0).pc.toNat + 0 = (0 : Byte).toNat :=
  ⟨by decide, by decide, by decide, rfl, rfl, by decide⟩

end Sys2Proof.Tests
end

section
/-! PROOFS. The state reset leaves (spec/10_state.md R23, spec/70_reset_and_hazards.md R130). -/

namespace Sys2Proof.Machine

/-- Nothing is listed after reset, so every cell reads as `Memory.unlisted`. -/
@[simp] theorem State.byteAt_reset (a : Nat) : State.reset.byteAt a = 0 := Memory.read_nil a

/-- The register file after reset: only the stack pointer is not 0. -/
theorem State.reg_reset (q : RegIx) : State.reset.reg q = if q = 7 then Config.spReset else 0 := by
  revert q
  decide

/-- The host's reset does not depend on the state it is applied to. -/
@[simp] theorem hostReset_eq (s : State) : hostReset s = State.reset := rfl

/-- Settles O12: memory and registers by their rules, the other four items by definition. -/
theorem resetLeavesTheStatedValues : Obligations.ResetLeavesTheStatedValues := by
  refine ⟨State.byteAt_reset, ?others, ?stackPointer, rfl, rfl, rfl, rfl, hostReset_eq⟩
  case others => exact fun q hq => (State.reg_reset q).trans (if_neg hq)
  case stackPointer => exact (State.reg_reset 7).trans (if_pos rfl)

end Sys2Proof.Machine
end

section
/-! PROOFS. The memory controller at every mathematical integer address (spec/20_memory.md R31, R32). -/

namespace Sys2Proof.Machine

/-- The addresses inside memory are the 8-bit ones, so the rules of `memRead` and `memWrite` at a byte cover them. -/
theorem exists_byte_of_inside {a : Int} (h0 : 0 ≤ a) (h : a < 256) : ∃ b : Byte, a = (b.toNat : Int) := by
  refine ⟨BitVec.ofNat 8 a.toNat, ?_⟩
  rw [BitVec.toNat_ofNat]
  omega

theorem memRead_outside {m : Memory} {a : Int} (h : a < 0 ∨ 256 ≤ a) : memRead m a = .error ⟨.memBounds, a⟩ :=
  if_neg fun ⟨h0, hlt⟩ => h.elim h0.not_gt hlt.not_ge

/-- The address check comes first: the value is not looked at. -/
theorem memWrite_outside {m : Memory} {a : Int} {v : Nat} (h : a < 0 ∨ 256 ≤ a) :
    memWrite m a v = .error ⟨.memBounds, a⟩ := if_pos h

/-- Settles O19: inside, the address is a byte; outside, the check fails. -/
theorem checkedReadFaultsOutsideMemory : Obligations.CheckedReadFaultsOutsideMemory := by
  refine fun m a => ⟨fun h0 h => ?inside, memRead_outside⟩
  obtain ⟨b, rfl⟩ := exists_byte_of_inside h0 h
  exact memRead_byte m b

/-- Settles O20: inside, the address is a byte, and what the write leaves is read off by `Memory.wf_write` and
`Memory.read_write`. -/
theorem checkedWriteFaultsOrStores : Obligations.CheckedWriteFaultsOrStores := by
  refine fun m a v => ⟨memWrite_outside, fun h0 h hv => ?tooWide, fun h0 h hv hm => ?stored⟩
  case tooWide =>
    obtain ⟨b, rfl⟩ := exists_byte_of_inside h0 h
    rw [memWrite_byte, if_pos hv]
  case stored =>
    obtain ⟨b, rfl⟩ := exists_byte_of_inside h0 h
    refine ⟨m.write b.toNat (BitVec.ofNat 8 v), ?accepted, Memory.wf_write hm b.isLt, ?written, fun c hc => ?frame⟩
    case accepted => rw [memWrite_byte, if_neg hv.not_gt]
    case written =>
      rw [Int.toNat_natCast, Memory.read_write hm, if_pos rfl, BitVec.toNat_ofNat]
      omega
    case frame => exact (Memory.read_write hm c).trans (if_neg hc)

end Sys2Proof.Machine
end

section
/-! PROOFS. Operand fetch against the bytes that stand at `pc` (spec/40_engine_cycle.md R73). -/

namespace Sys2Proof.Machine

open Sys2Proof.Claims

/-- Settles O7: the recognised opcode byte fixes the kind and the width, so the two clauses are `fetch_known` and
`fetch_operand_past`; `fetch_ok_iff` says that the encoding of what was fetched stands at `pc`. -/
theorem operandFetchReadsOwnedBytesOnly : Obligations.OperandFetchReadsOwnedBytesOnly := by
  intro s k hpc hk
  have hop : opcodeAt s = k.opcode := decodeOpcode_eq_some.1 hk
  rw [hop, ← opWidth_eq]
  refine ⟨fun hfits => ?inside, fetch_operand_past hpc hop⟩
  have hf := fetch_known hop hfits
  exact ⟨_, hf, k.kind_instr _ _, fetch_ok_iff.1 hf, length_encode_instr k _ _⟩

end Sys2Proof.Machine
end

section
/-! PROOFS. Fetch, said once for every instruction: its bytes at `pc` are run, and a fetch outside memory takes
MemBounds (spec/40_engine_cycle.md R71 to R73). The statements' `faulted` is `State.takeFault` of the report by
definition, so the laws of step and exec answer them as they stand. -/

namespace Sys2Proof

/-- An encoding starts with the opcode byte (spec/30_encoding.md R50). -/
@[simp] theorem head?_encode (i : Instr) : (encode i).head? = some i.opcode := by
  cases i <;> rfl

/-- The width law (spec/30_encoding.md R52). -/
theorem length_encode (i : Instr) : (encode i).length = opWidth i.opcode := by
  obtain ⟨o1, o2, hi⟩ := i.eq_instr
  rw [hi, length_encode_instr, Instr.opcode, OpKind.kind_instr]

end Sys2Proof

namespace Sys2Proof.Machine

open Sys2Proof.Claims

theorem fetchedAndRun (i : Instr) : FetchedAndRun i := fun _ hrun =>
  ⟨fun hcode => step_running hrun (fetch_ok_iff.2 hcode), fun hpc => step_fetch_error hrun (fetch_past hpc)⟩

theorem operandFetchFaults (i : Instr) : OperandFetchFaults i := by
  intro s hrun hpc hpast hhead
  have hop : i.opcode = opcodeAt s := by simpa using hhead
  rw [length_encode] at hpast
  exact step_fetch_error hrun (fetch_operand_past hpc hop.symm hpast)

end Sys2Proof.Machine
end

section
/-! PROOFS. LDI (spec/41_ldi.md R80). -/

namespace Sys2Proof.Machine

open Sys2Proof.Claims

/-- Writing one register and advancing changes nothing but registers and `pc`. -/
theorem sameMemoryOutputStatus_setReg_advance (s : State) (r : RegIx) (v : Byte) (n : Nat) :
    SameMemoryOutputStatus s ((s.setReg r v).advance n) := ⟨fun _ => rfl, rfl, rfl, rfl⟩

/-- Settles O22: encoding and fetch hold as for every instruction; a valid operand ends in `exec_ldi`'s result state,
whose registers are read off by `State.reg_setReg`, and any other in `exec_ldi_bad`'s fault. -/
theorem ldiLoadsTheImmediate : Obligations.LdiLoadsTheImmediate := by
  refine fun d imm => ⟨rfl, fetchedAndRun _, operandFetchFaults _, fun s => ⟨fun r hr => ?valid, fun hd => ?invalid⟩⟩
  case valid =>
    exact ⟨(s.setReg r imm).advance 3, exec_ldi hr, fun q => s.reg_setReg r q imm, rfl,
      sameMemoryOutputStatus_setReg_advance s r imm 3⟩
  case invalid => exact exec_ldi_bad hd

end Sys2Proof.Machine
end

section
/-! PROOFS. PRN (spec/42_prn.md R82). -/

namespace Sys2Proof.Machine

/-- Settles O23: encoding and fetch hold as for every instruction; a valid operand ends in `exec_prn`'s result state,
whose output, registers and memory are read off by the rules of `emit` (advancing touches none of them), and any other
in `exec_prn_bad`'s fault. -/
theorem prnAppendsTheRegister : Obligations.PrnAppendsTheRegister := by
  refine fun src => ⟨rfl, fetchedAndRun _, operandFetchFaults _, fun s => ⟨fun r hr => ?valid, fun hs => ?invalid⟩⟩
  case valid =>
    exact ⟨(s.emit (s.reg r)).advance 2, exec_prn hr, s.emit_out (s.reg r), rfl, s.reg_emit (s.reg r),
      s.byteAt_emit (s.reg r), rfl, rfl⟩
  case invalid => exact exec_prn_bad hs

end Sys2Proof.Machine
end

section
/-! PROOFS. Taking a fault (spec/60_exceptions.md R113). -/

namespace Sys2Proof.Machine

variable {s t : State}

/-- Only HLT writes the run state when an instruction completes. -/
theorem Completes.run_cases {i : Instr} (h : Completes s i t) : t.run = s.run ∨ i = .hlt ∧ t.run = .halted := by
  cases h with
  | hlt => exact .inr ⟨rfl, rfl⟩
  | _ => exact .inl rfl

/-- A step from RUNNING that ends in FAULTED did not complete an instruction, so it took a fault of its start state. -/
theorem step_faulted (hrun : s.run = .running) (h : step s = .next t) (ht : t.run = .faulted) :
    ∃ f, StepRaises s f ∧ t = s.takeFault f := by
  refine (step_cases hrun h).resolve_left fun ⟨i, _, hc⟩ => ?completed
  obtain hkept | ⟨-, hhalted⟩ := hc.run_cases
  · simp [hkept, hrun] at ht
  · simp [hhalted] at ht

/-- Settles O11: the step ends in `State.takeFault`, whose rules say that only `run` and `fault` change. -/
theorem takingAFaultIsPrecise : Obligations.TakingAFaultIsPrecise := by
  intro s t hrun hstep ht
  obtain ⟨f, -, rfl⟩ := step_faulted hrun hstep ht
  exact ⟨s.reg_takeFault f, s.takeFault_pc f, s.byteAt_takeFault f, s.takeFault_mem f, s.takeFault_out f,
    f.cause, f.info, s.takeFault_fault f⟩

end Sys2Proof.Machine
end

section
/-! PROOFS. The decoder over lists of bytes: `decode` and `encode` are inverse to each other (spec/30_encoding.md
sections 3 to 6). -/

namespace Sys2Proof

open Sys2Proof.Claims

theorem byteOfList_ok_iff {bytes : List Byte} {k : Nat} {b : Byte} :
    byteOfList bytes k = .ok b ↔ bytes[k]? = some b := by
  unfold byteOfList
  cases bytes[k]? <;> simp

/-- What `decode` adds to the one decoder: the bytes after the instruction. -/
theorem decode_ok_iff {bytes rest : List Byte} {i : Instr} :
    decode bytes = .ok (i, rest) ↔
      decodeFrom (byteOfList bytes) .unknownOpcode = .ok i ∧ bytes.drop i.width = rest := by
  unfold decode
  cases decodeFrom (byteOfList bytes) .unknownOpcode with
  | error e => simp
  | ok j =>
    simp only [Except.ok.injEq, Prod.mk.injEq]
    exact and_congr_right fun hij => by rw [hij]

/-- Over a list of bytes, the decoder answers the instruction whose encoding the list begins with. -/
theorem decodeFrom_list_ok_iff {bytes : List Byte} {i : Instr} :
    decodeFrom (byteOfList bytes) .unknownOpcode = .ok i ↔ encode i <+: bytes := by
  rw [List.prefix_iff_getElem?]
  constructor
  · exact fun h k hk => byteOfList_ok_iff.1 (read_of_decodeFrom h k hk)
  · exact fun h => decodeFrom_encode fun k hk => byteOfList_ok_iff.2 (h k hk)

/-- Settles O2: the list begins with the encoding, and dropping the width (the length of the encoding) leaves the rest. -/
theorem decodeOfEncodeIsIdentity : Obligations.DecodeOfEncodeIsIdentity := fun i rest =>
  decode_ok_iff.2 ⟨decodeFrom_list_ok_iff.2 (List.prefix_append _ rest), List.drop_left' (length_encode i)⟩

/-- Settles O3: a list that begins with the encoding is the encoding and what is left after its length, the width. -/
theorem decodedBytesAreTheEncoding : Obligations.DecodedBytesAreTheEncoding := by
  intro bytes i rest h
  obtain ⟨hdec, rfl⟩ := decode_ok_iff.1 h
  have hlen : (encode i).length = i.width := length_encode i
  rw [← hlen]
  exact (List.prefix_iff_eq_append.1 (decodeFrom_list_ok_iff.1 hdec)).symm

/-- Settles O1: the bytes of each word are the encoding of its instruction and the bytes after it, so O2 decodes them;
the two table words are evaluated. -/
theorem writtenOutWordsDecode : Obligations.WrittenOutWordsDecode :=
  ⟨decodeOfEncodeIsIdentity (.ldi 3 77) [], decodeOfEncodeIsIdentity (.prn 7) [],
    decodeOfEncodeIsIdentity (.add 1 2) [], decodeOfEncodeIsIdentity (.sub 2 1) [],
    decodeOfEncodeIsIdentity (.mul 4 5) [], decodeOfEncodeIsIdentity (.push 6) [],
    decodeOfEncodeIsIdentity (.pop 5) [], decodeOfEncodeIsIdentity (.call 1) [0x11],
    decodeOfEncodeIsIdentity .ret [], decodeOfEncodeIsIdentity .hlt [0x82], by decide, by decide⟩

/-! ### The ten opcode bytes and the others -/

theorem mem_allKinds (k : OpKind) : k ∈ allKinds := by
  cases k <;> decide

/-- The statements' list of opcode bytes is the decoder's table. -/
theorem definedOpcodes_eq : definedOpcodes = allKinds.map OpKind.opcode := rfl

theorem mem_definedOpcodes_iff {op : Byte} : op ∈ definedOpcodes ↔ ∃ k : OpKind, k.opcode = op := by
  simp [definedOpcodes_eq, mem_allKinds]

theorem decodeOpcode_eq_none_iff {op : Byte} : decodeOpcode op = none ↔ op ∉ definedOpcodes := by
  rw [decodeOpcode_eq_none, mem_definedOpcodes_iff, not_exists]
  exact forall_congr' fun k => ne_comm

/-- Settles O4: a byte the decoder knows is the opcode byte of a kind, one row each; any other is none of the ten. -/
theorem opcodeDecoderIsTheTenRowMap : Obligations.OpcodeDecoderIsTheTenRowMap := by
  refine fun op => ⟨?row, opWidth_eq op⟩
  cases hk : decodeOpcode op with
  | some k =>
    obtain rfl := decodeOpcode_eq_some.1 hk
    cases k <;> decide
  | none =>
    have hne := decodeOpcode_eq_none_iff.1 hk
    simp only [definedOpcodes, List.mem_cons, List.not_mem_nil, or_false, not_or] at hne
    simp only [hne, if_false, Option.map_none]

/-- An unknown first byte is rejected whatever follows it. -/
theorem decode_unknown {op : Byte} (rest : List Byte) (h : op ∉ definedOpcodes) :
    decode (op :: rest) = .error (.unknownOpcode op) := by
  have hop : byteOfList (op :: rest) 0 = .ok op := byteOfList_ok_iff.2 rfl
  rw [decode, decodeFrom_eq, hop]
  simp only [decodeOpcode_eq_none_iff.2 h]

/-- Settles O6: the decoder's table has no row for the byte, so neither reading of it gets past the opcode. -/
theorem unknownByteFaultsAtOnce : Obligations.UnknownByteFaultsAtOnce :=
  ⟨fun _ rest h => decode_unknown rest h,
    fun _ hrun hpc h => Machine.step_fetch_error hrun (Machine.fetch_unknown hpc (decodeOpcode_eq_none_iff.2 h))⟩

end Sys2Proof

namespace Sys2Proof.Machine

variable {s : State}

theorem State.getElem?_codeBytes (s : State) (k : Nat) :
    s.codeBytes[k]? = if s.pc.toNat + k < 256 then some (s.byteAt (s.pc.toNat + k)) else none := by
  simp only [State.codeBytes, Config.memSize, List.getElem?_map]
  split_ifs with h
  · rw [List.getElem?_range (by omega), Option.map_some]
  · rw [List.getElem?_eq_none (by simp; omega), Option.map_none]

/-- Fetch over memory and `decode` over the bytes from `pc` upward give the same instruction. -/
theorem fetch_of_decode_codeBytes {i : Instr} {rest : List Byte} (h : decode s.codeBytes = .ok (i, rest)) :
    fetch s = .ok i := by
  have hread := List.prefix_iff_getElem?.1 (decodeFrom_list_ok_iff.1 (decode_ok_iff.1 h).1)
  refine fetch_ok_iff.2 fun k hk => ?_
  simpa [State.getElem?_codeBytes] using hread k hk

/-- Settles O5: what the list decoder answers is what fetch answers, and a step executes what was fetched. -/
theorem stepRunsDecodedInstruction : Obligations.StepRunsDecodedInstruction := fun _ _ _ hrun h =>
  step_running hrun (fetch_of_decode_codeBytes h)

end Sys2Proof.Machine
end

section
/-! PROOFS. What completing an instruction leaves: one frame lemma per item of state, read off `Completes`. -/

namespace Sys2Proof

/-- The operand byte that names the register an instruction writes (spec/10_state.md R14); the stack pointer's own
moves are not counted. -/
def Instr.destination : Instr → Option Byte
  | .ldi d _ | .add d _ | .sub d _ | .mul d _ | .pop d => some d
  | .prn _ | .push _ | .call _ | .ret | .hlt => none

end Sys2Proof

namespace Sys2Proof.Machine

variable {s t : State} {i : Instr}

theorem Completes.fault (h : Completes s i t) : t.fault = s.fault := by
  cases h <;> rfl

/-- No instruction faults when it completes. -/
theorem Completes.run_ne_faulted (h : Completes s i t) (hrun : s.run = .running) : t.run ≠ .faulted := by
  obtain hkept | ⟨-, hhalted⟩ := h.run_cases
  · simp [hkept, hrun]
  · simp [hhalted]

/-- Only PRN writes the output. -/
theorem Completes.out (h : Completes s i t) :
    t.out = s.out ∨ ∃ (src : Byte) (r : RegIx), i = .prn src ∧ src.toNat = r.val ∧ t.out = s.out ++ [s.reg r] := by
  cases h with
  | prn hr => exact .inr ⟨_, _, rfl, hr, rfl⟩
  | _ => exact .inl rfl

/-- Only PUSH and CALL write memory, one byte at the address below the stack pointer. -/
theorem Completes.mem (h : Completes s i t) :
    t.mem = s.mem ∨ i.kind ∈ ([.push, .call] : List OpKind) ∧
      ∃ a v : Byte, a.toNat + 1 = s.sp.toNat ∧ t.mem = s.mem.write a.toNat v := by
  cases h with
  | push _ ht => exact .inr ⟨by simp [Instr.kind], _, _, ht, rfl⟩
  | call _ ht _ => exact .inr ⟨by simp [Instr.kind], _, _, ht, rfl⟩
  | _ => exact .inl rfl

theorem Completes.mem_wf (h : Completes s i t) (hm : s.mem.wf = true) : t.mem.wf = true := by
  obtain hkept | ⟨-, a, v, -, hstored⟩ := h.mem
  · rwa [hkept]
  · rw [hstored]
    exact Memory.wf_write hm a.isLt

theorem State.eq_of_reg_setReg_ne {q r : RegIx} {v : Byte} (h : (s.setReg r v).reg q ≠ s.reg q) : q = r := by
  by_contra hne
  exact h (by rw [State.reg_setReg, if_neg hne])

/-- The registers an instruction may change: its destination and, by the stack instructions, the stack pointer. -/
theorem Completes.reg (h : Completes s i t) {q : RegIx} (hq : t.reg q ≠ s.reg q) :
    (∃ d, i.destination = some d ∧ d.toNat = q.val) ∨
      i.kind ∈ ([.push, .pop, .call, .ret] : List OpKind) ∧ q = 7 := by
  cases h with
  | ldi hd => exact .inl ⟨_, rfl, State.eq_of_reg_setReg_ne hq ▸ hd⟩
  | add hd _ => exact .inl ⟨_, rfl, State.eq_of_reg_setReg_ne hq ▸ hd⟩
  | sub hd _ => exact .inl ⟨_, rfl, State.eq_of_reg_setReg_ne hq ▸ hd⟩
  | mul hd _ => exact .inl ⟨_, rfl, State.eq_of_reg_setReg_ne hq ▸ hd⟩
  | pop hd _ _ =>
    by_cases h7 : q = 7
    · exact .inr ⟨by simp [Instr.kind], h7⟩
    · refine .inl ⟨_, rfl, ?_⟩
      rw [State.reg_advance, State.reg_setSp, if_neg h7] at hq
      exact State.eq_of_reg_setReg_ne hq ▸ hd
  | push _ _ => exact .inr ⟨by simp [Instr.kind], State.eq_of_reg_setReg_ne hq⟩
  | call _ _ _ => exact .inr ⟨by simp [Instr.kind], State.eq_of_reg_setReg_ne hq⟩
  | ret _ _ => exact .inr ⟨by simp [Instr.kind], State.eq_of_reg_setReg_ne hq⟩
  | prn _ => exact absurd rfl hq
  | hlt => exact absurd rfl hq

/-- A byte written to `pc` keeps its value. -/
theorem toNat_zeroExtended (b : Byte) : (b.setWidth 9).toNat = b.toNat := by
  have := b.isLt
  rw [BitVec.toNat_setWidth]
  omega

theorem toNat_zeroExtended_le (b : Byte) : (b.setWidth 9).toNat ≤ 255 := by
  have := b.isLt
  rw [toNat_zeroExtended]
  omega

/-- The three ways `pc` is written (spec/40_engine_cycle.md R74). -/
theorem Completes.pc (h : Completes s i t) :
    (i.kind ∉ ([.call, .ret, .hlt] : List OpKind) ∧ t.pc = s.pc + BitVec.ofNat 9 i.width) ∨
    (i.kind ∈ ([.call, .ret] : List OpKind) ∧ t.pc.toNat ≤ 255) ∨ (i = .hlt ∧ t.pc = s.pc) := by
  cases h with
  | call _ _ _ => exact .inr (.inl ⟨by simp [Instr.kind], toNat_zeroExtended_le _⟩)
  | ret _ _ => exact .inr (.inl ⟨by simp [Instr.kind], toNat_zeroExtended_le _⟩)
  | hlt => exact .inr (.inr ⟨rfl, rfl⟩)
  | _ => exact .inl ⟨by simp [Instr.kind], by rw [Instr.width, Instr.opcode, opWidth_opcode]; rfl⟩

/-- The generic advance of an instruction that lies inside memory does not wrap. -/
theorem toNat_pc_add_width (hw : s.pc.toNat + i.width ≤ 256) :
    (s.pc + BitVec.ofNat 9 i.width).toNat = s.pc.toNat + i.width := by
  rw [BitVec.toNat_add, BitVec.toNat_ofNat]
  omega

theorem Completes.pc_le (h : Completes s i t) (hw : s.pc.toNat + i.width ≤ 256) : t.pc.toNat ≤ 256 := by
  obtain ⟨-, hpc⟩ | ⟨-, hpc⟩ | ⟨-, hpc⟩ := h.pc
  · rw [hpc, toNat_pc_add_width hw]
    exact hw
  · omega
  · rw [hpc]
    omega

end Sys2Proof.Machine
end

section
/-! PROOFS. The invariant (spec/10_state.md sections 3 and 5, spec/60_exceptions.md R111, R113), kept by every step. -/

namespace Sys2Proof.Machine

variable {s t : State}

/-- The info SpInc reports is legal. -/
theorem legal_spInc_info {b : Byte} {pc : Pc} (h : 244 ≤ b.toNat) :
    FaultRecord.legal ⟨.stackBounds, pc, b.toNat⟩ := by
  have := b.isLt
  show (b.toNat : Int) = 0 ∨ (0xF4 : Int) ≤ b.toNat ∧ (b.toNat : Int) ≤ 0xFF
  omega

/-- The info a completed fetch allows an instruction's fault: CALL's return address is at most 256. -/
theorem Raises.legal {i : Instr} {f : FaultReport} (h : Raises s i f) (hw : s.pc.toNat + i.width ≤ 256) :
    FaultRecord.legal ⟨f.cause, s.pc, f.info⟩ := by
  cases h with
  | @regIndex _ o _ hbad =>
    have := o.isLt
    show (8 : Int) ≤ o.toNat ∧ (o.toNat : Int) ≤ 255
    omega
  | pushEmpty _ => exact .inl rfl
  | callEmpty _ => exact .inl rfl
  | popFull _ hfull =>
    exact legal_spInc_info hfull
  | retFull hfull =>
    exact legal_spInc_info hfull
  | @callRange target hrange =>
    have hwidth : (Instr.call target).width = 2 := opWidth_opcode .call
    rw [hwidth] at hw
    show ((s.pc.toNat + 2 : Nat) : Int) = 256
    omega

theorem StepRaises.legal {f : FaultReport} (h : StepRaises s f) (hpc : s.pc.toNat ≤ 256) :
    FaultRecord.legal ⟨f.cause, s.pc, f.info⟩ := by
  cases h with
  | pastEnd hpast =>
    show (s.pc.toNat : Int) = 256
    omega
  | operand _ => rfl
  | unknown _ =>
    have := (s.byteAt s.pc.toNat).isLt
    show (0 : Int) ≤ (s.byteAt s.pc.toNat).toNat ∧ ((s.byteAt s.pc.toNat).toNat : Int) ≤ 255
    omega
  | instr hf hr => exact hr.legal (fetch_opcode hf).2

/-- In RUNNING the invariant says that no fault is recorded. -/
theorem State.Inv.fault_eq_none (h : s.Inv) (hrun : s.run ≠ .faulted) : s.fault = none :=
  Option.not_isSome_iff_eq_none.1 (mt h.recorded.2 hrun)

theorem State.Inv.completes {i : Instr} (h : s.Inv) (hrun : s.run = .running) (hw : s.pc.toNat + i.width ≤ 256)
    (hc : Completes s i t) : t.Inv := by
  have hfault : t.fault = none := hc.fault.trans (h.fault_eq_none (by simp [hrun]))
  exact {
    memory := hc.mem_wf h.memory
    pcRange := hc.pc_le hw
    recorded := by simp [hfault, hc.run_ne_faulted hrun]
    legalRecord := by simp [hfault] }

theorem State.Inv.takeFault {f : FaultReport} (h : s.Inv) (hf : StepRaises s f) : (s.takeFault f).Inv where
  memory := h.memory
  pcRange := h.pcRange
  recorded := by simp
  legalRecord := by
    rintro _ ⟨⟩
    exact ⟨hf.legal h.pcRange, rfl⟩

/-- Settles O14: from RUNNING, the two ends `step_cases` gives a step each keep the invariant; a terminal state is its
own next state. -/
theorem everyStepKeepsTheInvariant : Obligations.EveryStepKeepsTheInvariant := by
  intro s t h hstep
  by_cases hrun : s.run = .running
  · obtain ⟨i, hf, hc⟩ | ⟨f, hf, rfl⟩ := step_cases hrun hstep
    · exact h.completes hrun (fetch_opcode hf).2 hc
    · exact h.takeFault hf
  · rw [step_terminal hrun] at hstep
    exact Host.Outcome.next.inj hstep ▸ h

/-- Settles O13: nothing is listed in memory, `pc` is 0 and no fault is recorded. -/
theorem resetMeetsTheInvariant : Obligations.ResetMeetsTheInvariant where
  memory := reset_mem_wf
  pcRange := Nat.zero_le _
  recorded := by decide
  legalRecord := fun _ hf => nomatch hf

end Sys2Proof.Machine
end

section
/-! PROOFS. The canonical form of memory (spec/10_state.md section 4). -/

namespace Sys2Proof.Machine

theorem Memory.read_cons_self (x : Nat) (b : Byte) (m : Memory) : Memory.read ((x, b) :: m) x = b := if_pos rfl

theorem Memory.read_cons_of_ne {x a : Nat} (b : Byte) (m : Memory) (h : x ≠ a) :
    Memory.read ((x, b) :: m) a = m.read a := if_neg h

/-- Settles O21, by induction on one memory along the other. The first entry of each is the lowest address that does
not read as 0, so the first entries agree, and below the rest both read alike as well. -/
theorem canonicalMemoriesReadingAlikeAreEqual : Obligations.CanonicalMemoriesReadingAlikeAreEqual := by
  intro m m' hm hm' hread
  induction m generalizing m' with
  | nil =>
    cases m' with
    | nil => rfl
    | cons c' m' =>
      obtain ⟨y, b'⟩ := c'
      obtain ⟨-, hb', -, -⟩ := Memory.wf_cons.1 hm'
      exact absurd ((hread y).trans (Memory.read_cons_self y b' m')).symm hb'
  | cons c m ih =>
    obtain ⟨x, b⟩ := c
    obtain ⟨-, hb, hab, hwf⟩ := Memory.wf_cons.1 hm
    cases m' with
    | nil => exact absurd ((Memory.read_cons_self x b m).symm.trans (hread x)) hb
    | cons c' m' =>
      obtain ⟨y, b'⟩ := c'
      obtain ⟨-, hb', hab', hwf'⟩ := Memory.wf_cons.1 hm'
      obtain hlt | heq | hgt := lt_trichotomy x y
      · have hx := hread x
        rw [Memory.read_cons_self, Memory.read_cons_of_ne b' m' hlt.ne', Memory.read_of_above hab' hlt.le] at hx
        exact absurd hx hb
      · subst heq
        have hx := hread x
        rw [Memory.read_cons_self, Memory.read_cons_self] at hx
        refine congrArg₂ List.cons (by rw [hx]) (ih m' hwf hwf' fun a => ?_)
        by_cases ha : x = a
        · subst ha
          rw [Memory.read_of_above hab le_rfl, Memory.read_of_above hab' le_rfl]
        · have h := hread a
          rwa [Memory.read_cons_of_ne b m ha, Memory.read_cons_of_ne b' m' ha] at h
      · have hy := hread y
        rw [Memory.read_cons_self, Memory.read_cons_of_ne b m hgt.ne', Memory.read_of_above hab hgt.le] at hy
        exact absurd hy.symm hb'

end Sys2Proof.Machine
end

section
/-! PROOFS. Runs: they never stop by themselves, compose, and stay where they have ended (spec/40_engine_cycle.md R70,
R76). -/

namespace Sys2Proof.Machine

variable {s t u : State}

/-- Settles O9: a fetched instruction ends in a next state, a fetch fault is taken, and a terminal state is its own. -/
theorem everyStepAnswersNext : Obligations.EveryStepAnswersNext := by
  intro s
  by_cases hrun : s.run = .running
  · cases hf : fetch s with
    | ok i =>
      rw [step_running hrun hf]
      exact exec_next i s
    | error f => exact ⟨_, step_fetch_error hrun hf⟩
  · exact ⟨s, step_terminal hrun⟩

/-- Settles O8, by induction on the number of steps, each of which answers the state itself. -/
theorem terminalStatesKeepAllState : Obligations.TerminalStatesKeepAllState := by
  intro s hs k
  induction k with
  | zero => exact runsTo_zero.2 rfl
  | succ k ih => exact runsTo_succ.2 ⟨s, step_terminal hs, ih⟩

theorem exists_runsTo (k : Nat) (s : State) : ∃ t, runsTo k s t := by
  induction k generalizing s with
  | zero => exact ⟨s, runsTo_zero.2 rfl⟩
  | succ k ih =>
    obtain ⟨u, hu⟩ := everyStepAnswersNext s
    obtain ⟨t, ht⟩ := ih u
    exact ⟨t, runsTo_succ.2 ⟨u, hu, ht⟩⟩

theorem runsTo_unique {k : Nat} (ht : runsTo k s t) (hu : runsTo k s u) : t = u :=
  Host.Outcome.next.inj (Eq.trans ht.symm hu)

theorem runsTo_add {j k : Nat} : runsTo (j + k) s u ↔ ∃ t, runsTo j s t ∧ runsTo k t u := by
  induction j generalizing s with
  | zero => simp [runsTo_zero]
  | succ j ih =>
    rw [Nat.succ_add]
    simp only [runsTo_succ, ih]
    constructor
    · rintro ⟨v, hv, t, ht, hu⟩
      exact ⟨t, ⟨v, hv, ht⟩, hu⟩
    · rintro ⟨t, ⟨v, hv, ht⟩, hu⟩
      exact ⟨v, hv, t, ht, hu⟩

/-- A run that has reached a terminal state is in it ever after. -/
theorem runsTo_of_le {j k : Nat} (hjk : j ≤ k) (h : runsTo j s t) (ht : t.run ≠ .running) : runsTo k s t := by
  obtain ⟨d, rfl⟩ := Nat.exists_eq_add_of_le hjk
  exact runsTo_add.2 ⟨t, h, terminalStatesKeepAllState t ht d⟩

/-- A run ends in at most one state. -/
theorem runsTo_terminal_unique {j k : Nat} (ht : runsTo j s t) (hu : runsTo k s u) (htr : t.run ≠ .running)
    (hur : u.run ≠ .running) : t = u :=
  runsTo_unique (runsTo_of_le (Nat.le_add_right j k) ht htr) (runsTo_of_le (Nat.le_add_left k j) hu hur)

theorem not_neverEnds {k : Nat} (h : runsTo k s t) (ht : t.run ≠ .running) : ¬NeverEnds s := fun hn => by
  obtain ⟨u, hu, hrun⟩ := hn k
  exact ht (runsTo_unique h hu ▸ hrun)

/-- Settles O17: a run that does not stay RUNNING reaches a terminal state, and that state is one only. -/
theorem runHasExactlyOneFate : Obligations.RunHasExactlyOneFate := by
  refine fun s => ⟨?some, ?haltsFaults, ?haltsForever, ?faultsForever⟩
  case some =>
    by_cases hn : NeverEnds s
    · exact .inr (.inr hn)
    · simp only [NeverEnds, not_forall, not_exists, not_and] at hn
      obtain ⟨k, hk⟩ := hn
      obtain ⟨t, ht⟩ := exists_runsTo k s
      cases hrun : t.run with
      | running => exact absurd hrun (hk t ht)
      | halted => exact .inl ⟨k, t, ht, hrun⟩
      | faulted => exact .inr (.inl ⟨k, t, ht, hrun⟩)
  case haltsFaults =>
    rintro ⟨⟨j, t, ht, htr⟩, k, u, hu, hur⟩
    obtain rfl := runsTo_terminal_unique ht hu (by simp [htr]) (by simp [hur])
    simp [htr] at hur
  case haltsForever => exact fun ⟨⟨k, t, ht, hrun⟩, hn⟩ => not_neverEnds ht (by simp [hrun]) hn
  case faultsForever => exact fun ⟨⟨k, t, ht, hrun⟩, hn⟩ => not_neverEnds ht (by simp [hrun]) hn

theorem State.Inv.runsTo {k : Nat} (h : s.Inv) (hk : runsTo k s t) : t.Inv :=
  runsTo_invariant everyStepKeepsTheInvariant h hk

/-- Settles O18: along the run the invariant holds, which ties the record to FAULTED. -/
theorem safeRunIsOneThatNeverFaults : Obligations.SafeRunIsOneThatNeverFaults := by
  refine fun s hs _ => ⟨?safe, ?noFault⟩
  case safe =>
    rintro hsafe ⟨k, t, hk, hrun⟩
    have hsome := (hs.runsTo hk).recorded.1 hrun
    simp [hsafe k t hk] at hsome
  case noFault => exact fun hno k t hk => (hs.runsTo hk).fault_eq_none fun hrun => hno ⟨k, t, hk, hrun⟩

end Sys2Proof.Machine
end

section
/-! PROOFS. The load port and the host's read (spec/20_memory.md R44, spec/70_reset_and_hazards.md R131, R132). -/

namespace Sys2Proof.Machine

variable {s t : State}

/-- The state a run starts from. -/
theorem boot_eq (image : List Byte) :
    boot image =
      if image.length ≤ 256 then .next (State.reset.setMem (storeBytes [] 0 image)) else .refused .imageTooLong :=
  loadPort_reset image

theorem boot_next {image : List Byte} (h : boot image = .next s) :
    image.length ≤ 256 ∧ s = State.reset.setMem (storeBytes [] 0 image) := by
  rw [boot_eq] at h
  split_ifs at h with hlen
  exact ⟨hlen, (Host.Outcome.next.inj h).symm⟩

/-- An image that fits stands at its addresses. -/
theorem read_storeBytes_image {image : List Byte} (hlen : image.length ≤ 256) {a : Nat} (h : a < image.length) :
    (storeBytes [] 0 image).read a = image[a] := by
  rw [storeBytes_read Memory.wf_nil, dif_pos (by omega)]
  rfl

theorem read_storeBytes_past {image : List Byte} {a : Nat} (h : image.length ≤ a) :
    (storeBytes [] 0 image).read a = 0 := by
  rw [storeBytes_read Memory.wf_nil, dif_neg (by omega)]
  rfl

/-- Settles O15: only memory differs from the reset state, and what it holds is what `storeBytes` stores. -/
theorem loadPortStoresTheImage : Obligations.LoadPortStoresTheImage := by
  refine fun image => ⟨fun hlen => ?fits, fun hlen => ?tooLong⟩
  case fits =>
    exact ⟨_, (boot_eq image).trans (if_pos hlen), fun a h => read_storeBytes_image hlen h,
      fun a h => read_storeBytes_past h, storeBytes_wf Memory.wf_nil, State.reg_setMem _ _, rfl, rfl, rfl, rfl⟩
  case tooLong => exact (boot_eq image).trans (if_neg hlen.not_ge)

/-- A loaded state meets the invariant as the reset state does. -/
theorem inv_boot {image : List Byte} (h : boot image = .next s) : s.Inv := by
  obtain ⟨-, rfl⟩ := boot_next h
  exact { resetMeetsTheInvariant with memory := storeBytes_wf Memory.wf_nil }

/-- Settles O16: the invariant holds of the loaded state and along every run. -/
theorem bootedRunsMeetTheInvariant : Obligations.BootedRunsMeetTheInvariant := fun _ _ _ _ hs hk =>
  (inv_boot hs).runsTo hk

/-- An image with a byte that is not 0 leaves a state other than the reset state. -/
theorem boot_ne_reset {image : List Byte} (h : boot image = .next s) (hne : ∃ b ∈ image, b ≠ 0) :
    s ≠ State.reset := by
  rintro rfl
  obtain ⟨hlen, heq⟩ := boot_next h
  obtain ⟨b, hb, hb0⟩ := hne
  obtain ⟨a, ha, rfl⟩ := List.getElem_of_mem hb
  have hread := read_storeBytes_image hlen ha
  have hmem : storeBytes [] 0 image = [] := (congrArg State.mem heq).symm
  rw [hmem] at hread
  exact hb0 hread.symm

/-- Settles O47: the last step of the run does not end in the reset state, and neither does such a load; in any other
state the port is closed. -/
theorem loadPortClosesAtTheFirstStep : Obligations.LoadPortClosesAtTheFirstStep := by
  refine ⟨fun s t k image h => ?afterStep, fun image second s h hne => loadPort_closed second (boot_ne_reset h hne)⟩
  obtain ⟨u, -, hlast⟩ := runsTo_add.1 h
  obtain ⟨v, hv, hend⟩ := runsTo_succ.1 hlast
  obtain rfl := runsTo_zero.1 hend
  exact loadPort_closed image (step_ne_reset hv)

/-- Two views agree when their four parts do. -/
theorem HostView.ext_of_parts {v w : HostView} (hrun : v.run = w.run) (hf : v.fault = w.fault) (ho : v.out = w.out)
    (hr : v.rest = w.rest) : v = w := by
  cases v
  cases w
  simp_all

/-- Settles O48: in RUNNING the fourth part of the view is empty, and after the run it holds the other three items of
state. -/
theorem hostReadsAllStateOnlyAfterTheRun : Obligations.HostReadsAllStateOnlyAfterTheRun := by
  refine fun s t => ⟨rfl, rfl, rfl, fun hs ht hf ho => ?running, fun hs hview => ?terminal⟩
  case running =>
    exact HostView.ext_of_parts (ht.trans hs.symm) hf ho
      ((hostRead_rest_running ht).trans (hostRead_rest_running hs).symm)
  case terminal =>
    have hrun : t.run = s.run := congrArg HostView.run hview
    have hrest := congrArg HostView.rest hview
    rw [hostRead_rest_terminal hs, hostRead_rest_terminal (hrun ▸ hs)] at hrest
    obtain ⟨hregs, hpc, hmem⟩ : t.regs = s.regs ∧ t.pc = s.pc ∧ t.mem = s.mem := by simpa using hrest
    exact State.ext_of_fields (fun q => by rw [State.reg, State.reg, hregs]) hpc hmem hrun
      (congrArg HostView.fault hview) (congrArg HostView.out hview)

end Sys2Proof.Machine
end

section
/-! PROOFS. ADD, SUB and MUL (spec/43_alu.md). -/

namespace Sys2Proof.Machine

open Sys2Proof.Claims

/-- What ADD, SUB and MUL do alike: the destination holds the ALU's result, `pc` is 3 further, all else is kept. -/
theorem execAlu_effect {op : AluOp} {opc d src : Byte} {s : State} {rd rs : RegIx} (hopc : opWidth opc = 3)
    (hd : d.toNat = rd.val) (hs : src.toNat = rs.val) :
    ∃ t, execAlu op opc d src s = .next t ∧ t.reg rd = aluResult op (s.reg rd) (s.reg rs) ∧
      (∀ q, q ≠ rd → t.reg q = s.reg q) ∧ t.pc = s.pc + 3 ∧ SameMemoryOutputStatus s t := by
  refine ⟨_, execAlu_ok hd hs, ?result, fun q hq => ?frame, ?pc, sameMemoryOutputStatus_setReg_advance _ _ _ _⟩
  case result => rw [State.reg_advance, State.reg_setReg, if_pos rfl]
  case frame => rw [State.reg_advance, State.reg_setReg, if_neg hq]
  case pc => rw [hopc]; rfl

theorem toNat_aluResult_add (a b : Byte) : (aluResult .add a b).toNat = (a.toNat + b.toNat) % 256 := by
  have := aluResult_toNat .add a b
  simp only [aluExact] at this
  omega

theorem toNat_aluResult_mul (a b : Byte) : (aluResult .mul a b).toNat = (a.toNat * b.toNat) % 256 := by
  have := aluResult_toNat .mul a b
  simp only [aluExact] at this
  exact_mod_cast this

/-- The difference, and the borrow of 256 when it is negative. -/
theorem toNat_aluResult_sub (a b : Byte) :
    (aluResult .sub a b).toNat = if b.toNat ≤ a.toNat then a.toNat - b.toNat else a.toNat + 256 - b.toNat := by
  have := aluResult_toNat .sub a b
  have := a.isLt
  have := b.isLt
  simp only [aluExact] at *
  split_ifs <;> omega

/-- Settles O24: the shape of the ALU's instructions, with the sum for its result. -/
theorem addWritesTheSumModulo256 : Obligations.AddWritesTheSumModulo256 := by
  refine fun d src => ⟨rfl, fetchedAndRun _, operandFetchFaults _, fun s =>
    ⟨fun rd rs hd hs => ?valid, execAlu_bad_first, execAlu_bad_second⟩⟩
  obtain ⟨t, ht, hres, hframe⟩ := execAlu_effect (op := .add) (opWidth_opcode .add) hd hs
  exact ⟨t, ht, hres ▸ toNat_aluResult_add _ _, hframe⟩

/-- Settles O25: the shape of the ALU's instructions, with the difference for its result. -/
theorem subWritesTheDifferenceModulo256 : Obligations.SubWritesTheDifferenceModulo256 := by
  refine fun d src => ⟨rfl, fetchedAndRun _, operandFetchFaults _, fun s =>
    ⟨fun rd rs hd hs => ?valid, execAlu_bad_first, execAlu_bad_second⟩⟩
  obtain ⟨t, ht, hres, hframe⟩ := execAlu_effect (op := .sub) (opWidth_opcode .sub) hd hs
  have hval := toNat_aluResult_sub (s.reg rd) (s.reg rs)
  rw [← hres] at hval
  exact ⟨t, ht, fun hle => hval.trans (if_pos hle), fun hlt => hval.trans (if_neg hlt.not_ge), hframe⟩

/-- Settles O26: the shape of the ALU's instructions, with the low byte of the product for its result. -/
theorem mulWritesTheProductModulo256 : Obligations.MulWritesTheProductModulo256 := by
  refine fun d src => ⟨rfl, fetchedAndRun _, operandFetchFaults _, fun s =>
    ⟨fun rd rs hd hs => ?valid, execAlu_bad_first, execAlu_bad_second⟩⟩
  obtain ⟨t, ht, hres, hframe⟩ := execAlu_effect (op := .mul) (opWidth_opcode .mul) hd hs
  exact ⟨t, ht, hres ▸ toNat_aluResult_mul _ _, hframe⟩

/-- The ALU's result read as two's complement is the balanced residue of the exact result. -/
theorem toInt_aluResult (op : AluOp) (a b : Byte) : (aluResult op a b).toInt = (aluExact op a b).bmod 256 :=
  BitVec.toInt_ofInt _

/-- Settles O27: an operand read as two's complement is the balanced residue of the operand read as unsigned, and a
balanced residue of a sum, difference or product does not change when its operands are reduced first. -/
theorem aluResultHasNoSignedness : Obligations.AluResultHasNoSignedness := by
  intro a b
  simp only [toInt_aluResult, aluExact, a.toInt_eq_toNat_bmod, b.toInt_eq_toNat_bmod]
  exact ⟨Int.add_bmod _ _ _, Int.sub_bmod _ _ _, Int.mul_bmod _ _ _⟩

end Sys2Proof.Machine
end

section
/-! PROOFS. The stack pointer's moves, PUSH and POP (spec/44_stack.md). -/

namespace Sys2Proof.Machine

open Sys2Proof.Claims

variable {s : State}

/-- SpDec has an answer from 1 upward. -/
theorem exists_spDec {sp : Byte} (h : 1 ≤ sp.toNat) : ∃ t, spDec sp = .ok t :=
  ⟨sp - 1, by rw [spDec_eq, if_neg (by omega)]⟩

/-- SpInc has an answer below its limit. -/
theorem exists_spInc {sp : Byte} (h : sp.toNat < 0xF4) : ∃ t, spInc sp = .ok t :=
  ⟨sp + 1, by rw [spInc_eq, if_pos h]⟩

/-- Settles O28: the two moves' values are those of `spDec_ok_iff` and `spInc_ok_iff`. -/
theorem stackPointerMovesInsideItsLimits : Obligations.StackPointerMovesInsideItsLimits := by
  refine fun sp => ⟨fun h => ?empty, fun h => ?down, fun h => ?up, fun h => ?full⟩
  case empty => rw [spDec_eq, if_pos h]
  case down =>
    obtain ⟨t, ht⟩ := exists_spDec h
    have := spDec_ok_iff.1 ht
    exact ⟨t, ht, by omega⟩
  case up =>
    obtain ⟨t, ht⟩ := exists_spInc h
    exact ⟨t, ht, (spInc_ok_iff.1 ht).2⟩
  case full => rw [spInc_eq, if_neg h.not_gt]

/-- PUSH and CALL end in such a state: a byte stored, the stack pointer moved there and `pc` written. -/
theorem storedOnly_push (s : State) (a v : Byte) (p : Pc) (hm : s.mem.wf = true) :
    StoredOnly s (((s.setMem (s.mem.write a.toNat v)).setSp a).setPc p) a.toNat v :=
  ⟨(Memory.read_write hm _).trans (if_pos rfl), fun b hb => (Memory.read_write hm b).trans (if_neg hb), rfl, rfl, rfl⟩

/-- Settles O29: `exec_push` gives the result state where SpDec answers; the two faults are its other ends. -/
theorem pushStoresBelowTheStackPointer : Obligations.PushStoresBelowTheStackPointer := by
  refine fun src => ⟨rfl, fetchedAndRun _, operandFetchFaults _, fun s =>
    ⟨fun r a hr ha hm => ?valid, fun hs hsp => exec_push_empty hs (congrArg BitVec.toNat hsp), exec_push_bad⟩⟩
  exact ⟨_, exec_push hr ha, spDec_ok_iff.1 ha, storedOnly_push s a _ _ hm, fun q => State.reg_setSp _ q a, rfl⟩

theorem popBase_of_ne {r : RegIx} (h : r ≠ 7) : popBase s r = s.reg 7 := if_neg h

theorem popBase_seven : popBase s 7 = s.byteAt (s.reg 7).toNat := if_pos rfl

/-- POP's registers: the stack pointer's write comes last. -/
theorem reg_pop (s : State) (r q : RegIx) (v t : Byte) (n : Nat) :
    (((s.setReg r v).setSp t).advance n).reg q = if q = 7 then t else if q = r then v else s.reg q := by
  rw [State.reg_advance, State.reg_setSp, State.reg_setReg]

/-- Settles O30: `exec_pop` and `exec_pop_full` at the value the increment applies to, which `popBase` names for the two
kinds of destination. -/
theorem popLoadsFromTheStackPointer : Obligations.PopLoadsFromTheStackPointer := by
  refine fun d => ⟨rfl, fetchedAndRun _, operandFetchFaults _, fun s =>
    ⟨fun r hr h7 hsp => ?other, fun hd hb => ?stackPointer, fun hd hsp => ?otherFull, fun hd hb => ?stackPointerFull,
      exec_pop_bad⟩⟩
  case other =>
    obtain ⟨t, ht⟩ := exists_spInc hsp
    refine ⟨_, exec_pop hr (popBase_of_ne h7 ▸ ht), ?_, ?_, fun q hq hq7 => ?_, rfl, fun _ => rfl, rfl, rfl, rfl⟩
    · rw [reg_pop, if_neg h7, if_pos rfl]
      rfl
    · rw [reg_pop, if_pos rfl]
      exact (spInc_ok_iff.1 ht).2
    · rw [reg_pop, if_neg hq7, if_neg hq]
  case stackPointer =>
    subst hd
    obtain ⟨t, ht⟩ := exists_spInc hb
    refine ⟨_, exec_pop (r := 7) rfl (popBase_seven ▸ ht), ?_, fun q hq => ?_, rfl, fun _ => rfl, rfl, rfl, rfl⟩
    · rw [reg_pop, if_pos rfl]
      exact (spInc_ok_iff.1 ht).2
    · rw [reg_pop, if_neg hq, if_neg hq]
  case otherFull =>
    have hr : d.toNat = (⟨d.toNat, by omega⟩ : RegIx).val := rfl
    have hbase := popBase_of_ne (s := s) (r := ⟨d.toNat, by omega⟩) (Fin.ne_of_lt hd)
    rw [exec_pop_full hr (hbase ▸ hsp), hbase]
    rfl
  case stackPointerFull =>
    subst hd
    rw [exec_pop_full (d := 7) (r := 7) rfl (popBase_seven ▸ hb), popBase_seven]
    rfl

end Sys2Proof.Machine
end

section
/-! PROOFS. CALL, RET and HLT (spec/45_call_ret.md, spec/46_hlt_unknown.md). -/

namespace Sys2Proof.Machine

open Sys2Proof.Claims

/-- Settles O31: `exec_call` gives the result state where SpDec answers and the return address fits a cell; the three
faults are its other ends. -/
theorem callStoresTheReturnAddressAndJumps : Obligations.CallStoresTheReturnAddressAndJumps := by
  refine fun target => ⟨rfl, fetchedAndRun _, operandFetchFaults _, fun s =>
    ⟨fun r a hr ha hpc hm => ?valid, fun ht hsp hpc => ?range,
      fun ht hsp => exec_call_empty ht (congrArg BitVec.toNat hsp), exec_call_bad⟩⟩
  case valid =>
    exact ⟨_, exec_call hr ha hpc, spDec_ok_iff.1 ha, storedOnly_push s a _ _ hm, fun q => State.reg_setSp _ q a,
      toNat_zeroExtended _⟩
  case range =>
    obtain ⟨a, ha⟩ := exists_spDec hsp
    exact exec_call_range ht ha hpc

/-- Settles O32: `exec_ret` gives the result state where SpInc answers, `exec_ret_full` the fault. -/
theorem retJumpsToThePoppedByte : Obligations.RetJumpsToThePoppedByte := by
  refine ⟨rfl, fetchedAndRun _, fun s => ⟨fun hsp => ?valid, exec_ret_full⟩⟩
  obtain ⟨t, ht⟩ := exists_spInc hsp
  refine ⟨_, exec_ret ht, toNat_zeroExtended _, ?moved, fun q hq => ?frame, fun _ => rfl, rfl, rfl, rfl⟩
  case moved => exact (congrArg BitVec.toNat (State.sp_setSp s t)).trans (spInc_ok_iff.1 ht).2
  case frame => exact (State.reg_setSp s q t).trans (if_neg hq)

/-- Settles O33: HLT writes the run state alone, and the state it leaves is terminal. -/
theorem hltHaltsAndKeepsThePc : Obligations.HltHaltsAndKeepsThePc :=
  ⟨rfl, fetchedAndRun _, fun s => ⟨s.setRun .halted, exec_hlt, rfl, rfl, s.reg_setRun .halted, s.byteAt_setRun .halted,
    rfl, rfl, step_terminal (by simp)⟩⟩

end Sys2Proof.Machine
end

section
/-! PROOFS. The register-operand check, before any other effect of an instruction (spec/30_encoding.md R54). -/

namespace Sys2Proof

/-- The first register operand above 7, the one phase 4 of the step reports (spec/40_engine_cycle.md R71). -/
def Instr.badRegister (i : Instr) : Option Byte := i.registerOperands.find? fun b => decide (7 < b.toNat)

theorem Instr.exists_badRegister {i : Instr} (h : i.wellFormed = false) : ∃ o, i.badRegister = some o := by
  obtain ⟨o, ho, hbad⟩ := List.all_eq_false.1 h
  refine Option.isSome_iff_exists.1 (List.find?_isSome.2 ⟨o, ho, ?_⟩)
  simpa [validRegister] using hbad

/-- With no bad register operand, each one selects a register. -/
theorem Instr.register_of_badRegister_eq_none {i : Instr} (h : i.badRegister = none) {o : Byte}
    (ho : o ∈ i.registerOperands) : ∃ r : RegIx, o.toNat = r.val := by
  have hle : o.toNat ≤ 7 := by simpa using List.find?_eq_none.1 h o ho
  exact ⟨⟨o.toNat, by omega⟩, rfl⟩

end Sys2Proof

namespace Sys2Proof.Machine

variable {s : State}

/-- The shape of ADD, SUB and MUL reports the first of its two operands that is above 7. -/
theorem execAlu_badRegister {op : AluOp} {opc d src o : Byte}
    (h : [d, src].find? (fun b => decide (7 < b.toNat)) = some o) :
    execAlu op opc d src s = .next (s.takeFault ⟨.regIndex, o.toNat⟩) := by
  have hbad : 7 < o.toNat := by simpa using List.find?_some h
  by_cases hd : 7 < d.toNat
  · have hod : d = o := by simpa [hd] using h
    exact hod ▸ execAlu_bad_first hd
  · have hos : src = o := by
      rw [List.find?_cons_of_neg (by simpa using hd)] at h
      exact (List.mem_singleton.1 (List.mem_of_find?_eq_some h)).symm
    subst hos
    exact execAlu_bad_second (by omega) hbad

theorem exec_badRegister {i : Instr} {o : Byte} (h : i.badRegister = some o) :
    exec i s = .next (s.takeFault ⟨.regIndex, o.toNat⟩) := by
  have hbad : 7 < o.toNat := by simpa using List.find?_some h
  have hmem : o ∈ i.registerOperands := List.mem_of_find?_eq_some h
  cases i with
  | ldi _ _ => exact List.mem_singleton.1 hmem ▸ exec_ldi_bad hbad
  | prn _ => exact List.mem_singleton.1 hmem ▸ exec_prn_bad hbad
  | add _ _ => exact execAlu_badRegister h
  | sub _ _ => exact execAlu_badRegister h
  | mul _ _ => exact execAlu_badRegister h
  | push _ => exact List.mem_singleton.1 hmem ▸ exec_push_bad hbad
  | pop _ => exact List.mem_singleton.1 hmem ▸ exec_pop_bad hbad
  | call _ => exact List.mem_singleton.1 hmem ▸ exec_call_bad hbad
  | ret => exact absurd hmem List.not_mem_nil
  | hlt => exact absurd hmem List.not_mem_nil

/-- Settles O34: the fault of the first bad operand; an ill-formed instruction has one; LDI's only register operand is
the first byte. -/
theorem illFormedInstructionTakesRegIndex : Obligations.IllFormedInstructionTakesRegIndex := by
  refine ⟨fun i o s h => exec_badRegister h, fun i h => i.exists_badRegister h, fun d imm hd => ?immediate⟩
  simpa [Instr.wellFormed, Instr.registerOperands, validRegister] using hd

end Sys2Proof.Machine
end

section
/-! PROOFS. The priority list (spec/60_exceptions.md R110 to R112): the part of it the fetch answers, then the part the
fetched instruction answers. -/

namespace Sys2Proof.Machine

open Sys2Proof.Claims

variable {s t : State}

/-- The last two entries of the list, StackBounds and ByteRange, for an instruction whose register operands are valid. -/
def valueFault (s : State) : Instr → Option (FaultCause × Int)
  | .push _ => if s.reg 7 = 0 then some (.stackBounds, 0) else none
  | .pop d =>
    if d = 7 ∧ 0xF4 ≤ (s.byteAt (s.reg 7).toNat).toNat then some (.stackBounds, (s.byteAt (s.reg 7).toNat).toNat)
    else if d ≠ 7 ∧ 0xF4 ≤ (s.reg 7).toNat then some (.stackBounds, (s.reg 7).toNat)
    else none
  | .call _ =>
    if s.reg 7 = 0 then some (.stackBounds, 0)
    else if 255 < s.pc.toNat + 2 then some (.byteRange, (s.pc.toNat + 2 : Nat))
    else none
  | .ret => if 0xF4 ≤ (s.reg 7).toNat then some (.stackBounds, (s.reg 7).toNat) else none
  | .ldi _ _ | .prn _ | .add _ _ | .sub _ _ | .mul _ _ | .hlt => none

/-- The RegIndex entries for the register operands in their order, before the entries `rest`. -/
def registersFault (operands : List Byte) (rest : Option (FaultCause × Int)) : Option (FaultCause × Int) :=
  match operands with
  | [] => rest
  | o :: os => if 7 < o.toNat then some (.regIndex, o.toNat) else registersFault os rest

/-- The entries of the list from RegIndex on, for a fetched instruction. -/
def instrFault (s : State) (i : Instr) : Option (FaultCause × Int) :=
  registersFault i.registerOperands (valueFault s i)

theorem registersFault_eq (operands : List Byte) (rest : Option (FaultCause × Int)) :
    registersFault operands rest =
      ((operands.find? fun b => decide (7 < b.toNat)).elim rest fun o => some (.regIndex, (o.toNat : Int))) := by
  induction operands with
  | nil => rfl
  | cons o os ih =>
    by_cases ho : 7 < o.toNat <;> simp [registersFault, ho, ih]

theorem instrFault_of_badRegister {i : Instr} {o : Byte} (h : i.badRegister = some o) :
    instrFault s i = some (.regIndex, (o.toNat : Int)) := by
  rw [instrFault, registersFault_eq, ← Instr.badRegister, h]
  rfl

theorem instrFault_of_valid {i : Instr} (h : i.badRegister = none) : instrFault s i = valueFault s i := by
  rw [instrFault, registersFault_eq, ← Instr.badRegister, h]
  rfl

/-! ### The list, case by case of the fetch -/

theorem firstFault_past (h : 256 ≤ s.pc.toNat) : firstFault s = some (.memBounds, (s.pc.toNat : Int)) := if_pos h

theorem firstFault_unknown (h : s.pc.toNat < 256) (hop : s.byteAt s.pc.toNat ∉ definedOpcodes) :
    firstFault s = some (.unknownOpcode, ((s.byteAt s.pc.toNat).toNat : Int)) :=
  (if_neg h.not_ge).trans (if_pos hop)

theorem firstFault_operand_past {k : OpKind} (h : s.pc.toNat < 256) (hop : s.byteAt s.pc.toNat = k.opcode)
    (hw : 256 < s.pc.toNat + opWidth k.opcode) : firstFault s = some (.memBounds, 256) := by
  have hmem : k.opcode ∈ definedOpcodes := mem_definedOpcodes_iff.2 ⟨k, rfl⟩
  have hpos := opWidth_opcode_pos k
  rw [opWidth_eq] at hw hpos
  simp only [firstFault, hop]
  rw [if_neg h.not_ge, if_neg (not_not.2 hmem)]
  by_cases h1 : s.pc.toNat + 1 < 256
  · have h2 : s.pc.toNat + 2 = 256 := by omega
    rw [if_neg (by omega), if_pos (by omega), h2]
    rfl
  · have h1' : s.pc.toNat + 1 = 256 := by omega
    rw [if_pos (by omega), h1']
    rfl

theorem firstFault_fetched {k : OpKind} (hop : s.byteAt s.pc.toNat = k.opcode)
    (hw : s.pc.toNat + opWidth k.opcode ≤ 256) :
    firstFault s = instrFault s (k.instr (s.byteAt (s.pc.toNat + 1)) (s.byteAt (s.pc.toNat + 2))) := by
  have hmem : k.opcode ∈ definedOpcodes := mem_definedOpcodes_iff.2 ⟨k, rfl⟩
  have hpos := opWidth_opcode_pos k
  rw [opWidth_eq] at hw hpos
  simp only [firstFault, hop]
  rw [if_neg (by omega), if_neg (not_not.2 hmem), if_neg (by omega), if_neg (by omega)]
  cases k <;>
    simp [OpKind.opcode, OpKind.instr, instrFault, registersFault, Instr.registerOperands, valueFault, opcLdi, opcPrn,
      opcAdd, opcSub, opcMul, opcPush, opcPop, opcCall, opcRet, opcHlt]

/-! ### What an outcome does about the list -/

/-- The outcome takes the fault of an entry or, where none holds, completes without one. -/
def Takes (s : State) (entry : Option (FaultCause × Int)) (o : Host.Outcome State Fault Refusal) : Prop :=
  match entry with
  | some (cause, info) => o = .next (faulted s cause info)
  | none => ∃ t, o = .next t ∧ t.run ≠ .faulted ∧ t.fault = s.fault

/-- The converse of `exec_cases` for an instruction that completes. -/
theorem Completes.exec_eq {i : Instr} (h : Completes s i t) : exec i s = .next t := by
  cases h with
  | ldi hd => exact exec_ldi hd
  | prn hr => exact exec_prn hr
  | add hd hs => exact exec_add hd hs
  | sub hd hs => exact exec_sub hd hs
  | mul hd hs => exact exec_mul hd hs
  | push hr ha => exact exec_push hr (spDec_ok_iff.2 ha)
  | pop hr hb ht => exact exec_pop hr (spInc_ok_iff.2 ⟨hb, ht⟩)
  | call hr ha hpc => exact exec_call hr (spDec_ok_iff.2 ha) hpc
  | ret hb ht => exact exec_ret (spInc_ok_iff.2 ⟨hb, ht⟩)
  | hlt => exact exec_hlt

theorem Completes.takes {i : Instr} (h : Completes s i t) (hrun : s.run = .running) : Takes s none (exec i s) :=
  ⟨t, h.exec_eq, h.run_ne_faulted hrun, h.fault⟩

/-- StackBounds of a decrement comes before what an instruction does with the decremented stack pointer. -/
theorem takes_spDec {o : Host.Outcome State Fault Refusal} {entry : Option (FaultCause × Int)}
    (hempty : s.sp.toNat = 0 → o = .next (s.takeFault ⟨.stackBounds, 0⟩))
    (hmoved : ∀ a : Byte, a.toNat + 1 = s.sp.toNat → Takes s entry o) :
    Takes s (if s.reg 7 = 0 then some (.stackBounds, 0) else entry) o := by
  split_ifs with h0
  · exact hempty (congrArg BitVec.toNat h0)
  · have hpos : s.sp.toNat ≠ 0 := fun h => h0 (BitVec.toNat_inj.1 h)
    obtain ⟨a, ha⟩ := exists_spDec (sp := s.sp) (by omega)
    exact hmoved a (spDec_ok_iff.1 ha)

/-- POP's entry is that of an increment of the value `popBase` names. -/
theorem valueFault_pop {d : Byte} {r : RegIx} (h : d.toNat = r.val) :
    valueFault s (.pop d) =
      if 0xF4 ≤ (popBase s r).toNat then some (.stackBounds, ((popBase s r).toNat : Int)) else none := by
  by_cases h7 : r = 7
  · subst h7
    have hd : d = 7 := BitVec.toNat_inj.1 h
    simp [valueFault, popBase_seven, hd]
  · have hd : d ≠ 7 := by
      rintro rfl
      exact h7 (Fin.ext h.symm)
    simp only [valueFault, popBase_of_ne h7, hd, ne_eq, not_false_eq_true, true_and, false_and, if_false]

theorem exec_takes_valueFault (hrun : s.run = .running) {i : Instr}
    (hreg : ∀ o ∈ i.registerOperands, ∃ r : RegIx, o.toNat = r.val) : Takes s (valueFault s i) (exec i s) := by
  cases i with
  | ldi d imm =>
    obtain ⟨r, hr⟩ := hreg d (by simp [Instr.registerOperands])
    exact (Completes.ldi hr).takes hrun
  | prn src =>
    obtain ⟨r, hr⟩ := hreg src (by simp [Instr.registerOperands])
    exact (Completes.prn hr).takes hrun
  | add d src =>
    obtain ⟨rd, hd⟩ := hreg d (by simp [Instr.registerOperands])
    obtain ⟨rs, hs⟩ := hreg src (by simp [Instr.registerOperands])
    exact (Completes.add hd hs).takes hrun
  | sub d src =>
    obtain ⟨rd, hd⟩ := hreg d (by simp [Instr.registerOperands])
    obtain ⟨rs, hs⟩ := hreg src (by simp [Instr.registerOperands])
    exact (Completes.sub hd hs).takes hrun
  | mul d src =>
    obtain ⟨rd, hd⟩ := hreg d (by simp [Instr.registerOperands])
    obtain ⟨rs, hs⟩ := hreg src (by simp [Instr.registerOperands])
    exact (Completes.mul hd hs).takes hrun
  | push src =>
    obtain ⟨r, hr⟩ := hreg src (by simp [Instr.registerOperands])
    exact takes_spDec (exec_push_empty (by omega)) fun a ha => (Completes.push hr ha).takes hrun
  | pop d =>
    obtain ⟨r, hr⟩ := hreg d (by simp [Instr.registerOperands])
    rw [valueFault_pop hr]
    split_ifs with hb
    · exact exec_pop_full hr hb
    · obtain ⟨t, ht⟩ := exists_spInc (not_le.1 hb)
      exact (Completes.pop hr (not_le.1 hb) (spInc_ok_iff.1 ht).2).takes hrun
  | call target =>
    obtain ⟨r, hr⟩ := hreg target (by simp [Instr.registerOperands])
    refine takes_spDec (exec_call_empty (by omega)) fun a ha => ?_
    split_ifs with hpc
    · exact exec_call_range (by omega) (spDec_ok_iff.2 ha) hpc
    · exact (Completes.call hr ha (by omega)).takes hrun
  | ret =>
    show Takes s (if 0xF4 ≤ s.sp.toNat then some (.stackBounds, (s.sp.toNat : Int)) else none) _
    split_ifs with hb
    · exact exec_ret_full hb
    · obtain ⟨t, ht⟩ := exists_spInc (not_le.1 hb)
      exact (Completes.ret (not_le.1 hb) (spInc_ok_iff.1 ht).2).takes hrun
  | hlt => exact Completes.hlt.takes hrun

theorem exec_takes_instrFault (hrun : s.run = .running) (i : Instr) : Takes s (instrFault s i) (exec i s) := by
  cases hbad : i.badRegister with
  | some o =>
    rw [instrFault_of_badRegister hbad]
    exact exec_badRegister hbad
  | none =>
    rw [instrFault_of_valid hbad]
    exact exec_takes_valueFault hrun fun _ ho => i.register_of_badRegister_eq_none hbad ho

theorem step_takes_firstFault (hrun : s.run = .running) : Takes s (firstFault s) (step s) := by
  obtain ⟨hpc, hf⟩ | ⟨hpc, hop, hf⟩ | ⟨k, hpc, hop, hw, hf⟩ | ⟨k, hop, hw, hf⟩ := fetch_cases s
  · rw [firstFault_past hpc]
    exact step_fetch_error hrun hf
  · rw [firstFault_unknown hpc (decodeOpcode_eq_none_iff.1 hop)]
    exact step_fetch_error hrun hf
  · rw [firstFault_operand_past hpc hop hw]
    exact step_fetch_error hrun hf
  · rw [firstFault_fetched hop hw, step_running hrun hf]
    exact exec_takes_instrFault hrun _

/-- Settles O10: the fetch answers the first four entries, the fetched instruction the others. -/
theorem stepFaultsByThePriorityList : Obligations.StepFaultsByThePriorityList := fun _ hrun =>
  step_takes_firstFault hrun

end Sys2Proof.Machine
end

section
/-! PROOFS. No instruction reads the output or the fault record (spec/10_state.md R20, R21). -/

namespace Sys2Proof.Machine

open Sys2Proof.Claims

variable {s t : State} {i : Instr}

/-- `emitted` is what an effect from `s` to `t` appends to the output, whatever output and record `s` has. -/
def Completes.Emits (s : State) (i : Instr) (t : State) (emitted : List Byte) : Prop :=
  t.out = s.out ++ emitted ∧ ∀ (out : List Byte) (record : Option FaultRecord),
    Completes { s with out := out, fault := record } i { t with out := out ++ emitted, fault := record }

/-- An effect that appends nothing. -/
theorem Completes.Emits.nil (hout : t.out = s.out)
    (h : ∀ out record, Completes { s with out := out, fault := record } i { t with out := out, fault := record }) :
    Completes.Emits s i t [] :=
  ⟨by rw [hout, List.append_nil], fun out record => by rw [List.append_nil]; exact h out record⟩

/-- The conditions of `Completes` and its result states, but for the two items, name neither of them. -/
theorem Completes.exists_emits (h : Completes s i t) : ∃ emitted, Completes.Emits s i t emitted := by
  cases h with
  | prn hr => exact ⟨_, rfl, fun _ _ => .prn hr⟩
  | ldi hd => exact ⟨[], .nil rfl fun _ _ => .ldi hd⟩
  | add hd hs => exact ⟨[], .nil rfl fun _ _ => .add hd hs⟩
  | sub hd hs => exact ⟨[], .nil rfl fun _ _ => .sub hd hs⟩
  | mul hd hs => exact ⟨[], .nil rfl fun _ _ => .mul hd hs⟩
  | push hr ha => exact ⟨[], .nil rfl fun _ _ => .push hr ha⟩
  | pop hr hb ht => exact ⟨[], .nil rfl fun _ _ => .pop hr hb ht⟩
  | call hr ha hpc => exact ⟨[], .nil rfl fun _ _ => .call hr ha hpc⟩
  | ret hb ht => exact ⟨[], .nil rfl fun _ _ => .ret hb ht⟩
  | hlt => exact ⟨[], .nil rfl fun _ _ => .hlt⟩

/-- Settles O42: the priority list names neither item, so both states take the same fault or both complete; and the
fetch names neither, so both complete the same instruction. -/
theorem outputAndRecordAreNeverRead : Obligations.OutputAndRecordAreNeverRead := by
  intro s t hrun hstep
  have hlist := step_takes_firstFault hrun
  have hsame (out : List Byte) (record : Option FaultRecord) :
      firstFault { s with out := out, fault := record } = firstFault s := rfl
  cases hff : firstFault s with
  | some entry =>
    rw [hff, Takes, hstep] at hlist
    obtain rfl := Host.Outcome.next.inj hlist
    refine ⟨[], (List.append_nil _).symm, fun out record => ?_⟩
    have hother := step_takes_firstFault (s := { s with out := out, fault := record }) hrun
    rw [hsame, hff] at hother
    rw [List.append_nil]
    exact hother
  | none =>
    rw [hff] at hlist
    obtain ⟨u, hu, hne, -⟩ := hlist
    obtain rfl := Host.Outcome.next.inj (hstep.symm.trans hu)
    obtain ⟨i, hf, hc⟩ := (step_cases hrun hstep).resolve_right fun ⟨_, _, ht⟩ => hne (ht ▸ rfl)
    obtain ⟨emitted, hout, hother⟩ := hc.exists_emits
    refine ⟨emitted, hout, fun out record => ?_⟩
    rw [if_neg hne, step_running (s := { s with out := out, fault := record }) hrun hf]
    exact (hother out record).exec_eq

end Sys2Proof.Machine
end

section
/-! PROOFS. Rules over every step, read off the frame lemmas of `Completes`: a step that is not a completed instruction
keeps all state but `run` and the fault record. -/

namespace Sys2Proof

theorem opcode_injective : Function.Injective OpKind.opcode := fun k l h => by
  have hk := decodeOpcode_opcode k
  rw [h, decodeOpcode_opcode] at hk
  exact (Option.some.inj hk).symm

/-- Among the opcode bytes of some kinds stands an instruction's own if its kind is among them. -/
theorem Instr.opcode_mem_map_iff {i : Instr} {ks : List OpKind} : i.opcode ∈ ks.map OpKind.opcode ↔ i.kind ∈ ks :=
  List.mem_map_of_injective opcode_injective

theorem Instr.kind_of_destination {i : Instr} {d : Byte} (h : i.destination = some d) :
    i.kind ∈ ([.ldi, .add, .sub, .mul, .pop] : List OpKind) := by
  cases i with
  | ldi _ _ | add _ _ | sub _ _ | mul _ _ | pop _ => simp [Instr.kind]
  | prn _ | push _ | call _ | ret | hlt => nomatch h

/-- The destination operand is the first operand byte (spec/30_encoding.md R53). -/
theorem Instr.getElem?_encode_of_destination {i : Instr} {d : Byte} (h : i.destination = some d) :
    (encode i)[1]? = some d := by
  cases i with
  | ldi _ _ | add _ _ | sub _ _ | mul _ _ | pop _ => exact h
  | prn _ | push _ | call _ | ret | hlt => nomatch h

end Sys2Proof

namespace Sys2Proof.Machine

open Sys2Proof.Claims

variable {s t : State} {i : Instr}

theorem fetch_opcodeAt (hf : fetch s = .ok i) : opcodeAt s = i.opcode := (fetch_opcode hf).1

theorem opcodeAt_mem_iff (hf : fetch s = .ok i) (ks : List OpKind) :
    opcodeAt s ∈ ks.map OpKind.opcode ↔ i.kind ∈ ks := by
  rw [fetch_opcodeAt hf, Instr.opcode_mem_map_iff]

theorem opcodeAt_eq_iff (hf : fetch s = .ok i) (k : OpKind) : opcodeAt s = k.opcode ↔ i.kind = k := by
  rw [fetch_opcodeAt hf]
  exact opcode_injective.eq_iff

/-- The operand bytes of a fetched instruction stand behind its opcode byte. -/
theorem byteAt_of_fetch (hf : fetch s = .ok i) {k : Nat} {o : Byte} (ho : (encode i)[k]? = some o) :
    s.byteAt (s.pc.toNat + k) = o := by
  obtain ⟨hk, rfl⟩ := List.getElem?_eq_some_iff.1 ho
  exact (fetch_ok_iff.1 hf k hk).2

/-- What any step does: it completes the instruction that RUNNING fetches, or keeps all state but the run state and the
fault record. -/
theorem step_completes_or_keeps (h : step s = .next t) :
    (∃ i, fetch s = .ok i ∧ Completes s i t) ∨ ((∀ q, t.reg q = s.reg q) ∧ t.mem = s.mem ∧ t.out = s.out) := by
  by_cases hrun : s.run = .running
  · obtain hc | ⟨f, -, rfl⟩ := step_cases hrun h
    · exact .inl hc
    · exact .inr ⟨s.reg_takeFault f, rfl, rfl⟩
  · rw [step_terminal hrun] at h
    obtain rfl := Host.Outcome.next.inj h
    exact .inr ⟨fun _ => rfl, rfl, rfl⟩

/-- A step from RUNNING that does not end in FAULTED completes what it fetched. -/
theorem step_completes (hrun : s.run = .running) (h : step s = .next t) (ht : t.run ≠ .faulted) :
    ∃ i, fetch s = .ok i ∧ Completes s i t :=
  (step_cases hrun h).resolve_right fun ⟨_, _, htaken⟩ => ht (htaken ▸ rfl)

/-- Settles O35: the register is the destination, named by the first operand byte, or the stack pointer. -/
theorem registersChangeOnlyWhereNamed : Obligations.RegistersChangeOnlyWhereNamed := by
  intro s t q hstep hq
  obtain ⟨i, hf, hc⟩ := (step_completes_or_keeps hstep).resolve_right fun ⟨hreg, _⟩ => hq (hreg q)
  obtain ⟨d, hd, hdq⟩ | ⟨hkind, h7⟩ := hc.reg hq
  · refine .inl ⟨(opcodeAt_mem_iff hf [.ldi, .add, .sub, .mul, .pop]).2 (Instr.kind_of_destination hd), ?_⟩
    rw [byteAt_of_fetch hf (Instr.getElem?_encode_of_destination hd), hdq]
  · exact .inr ⟨(opcodeAt_mem_iff hf [.push, .pop, .call, .ret]).2 hkind, h7⟩

/-- Settles O36: only PRN completes with another output, and its operand is the first operand byte. -/
theorem outputChangesOnlyByPrn : Obligations.OutputChangesOnlyByPrn := by
  intro s t hstep
  obtain ⟨i, hf, hc⟩ | ⟨-, -, hout⟩ := step_completes_or_keeps hstep
  · refine hc.out.imp_right ?prn
    rintro ⟨src, r, rfl, hr, hout⟩
    exact ⟨fetch_opcodeAt hf, r, (congrArg BitVec.toNat (byteAt_of_fetch hf (o := src) rfl)).trans hr, hout⟩
  · exact .inl hout

/-- Settles O37: only PUSH and CALL complete with another memory, and they write one cell. -/
theorem memoryChangesOnlyByPushAndCall : Obligations.MemoryChangesOnlyByPushAndCall := by
  intro s t a hwf hstep ha
  have hmem : t.mem ≠ s.mem := fun h => ha (congrArg (Memory.read · a) h)
  obtain ⟨i, hf, hc⟩ := (step_completes_or_keeps hstep).resolve_right fun ⟨_, hkept, _⟩ => hmem hkept
  obtain ⟨hkind, b, v, hb, hstored⟩ := hc.mem.resolve_left hmem
  have hop : opcodeAt s ∈ ([0x45, 0x50] : List Byte) := (opcodeAt_mem_iff hf [.push, .call]).2 hkind
  have hab : a = b.toNat := by
    by_contra hne
    exact ha (by rw [State.byteAt, hstored, Memory.read_write hwf, if_neg hne]; rfl)
  exact ⟨by simpa using hop, hab ▸ hb⟩

/-- Settles O38: the three ways a completed instruction writes `pc`, told apart by its kind, which the opcode byte
gives. -/
theorem pcIsWrittenInThreeWays : Obligations.PcIsWrittenInThreeWays := by
  intro s t hrun hstep ht
  obtain ⟨i, hf, hc⟩ := step_completes hrun hstep ht
  have hw := (fetch_opcode hf).2
  have hwidth : i.width = (opcodeAt s).toNat / 64 + 1 := by
    rw [fetch_opcodeAt hf, ← opWidth_eq]
    rfl
  have hcall : opcodeAt s = 0x50 ↔ i.kind = .call := opcodeAt_eq_iff hf .call
  have hret : opcodeAt s = 0x11 ↔ i.kind = .ret := opcodeAt_eq_iff hf .ret
  have hhlt : opcodeAt s = 0x01 ↔ i.kind = .hlt := opcodeAt_eq_iff hf .hlt
  have hways := hc.pc
  simp only [List.mem_cons, List.not_mem_nil, or_false, hcall, hret, hhlt, ← hwidth] at hways ⊢
  obtain ⟨hkind, hpc⟩ | ⟨hkind, hpc⟩ | ⟨rfl, hpc⟩ := hways
  · rw [hpc, toNat_pc_add_width hw]
    exact ⟨fun _ => ⟨rfl, hw⟩, fun h => absurd (h.imp_right .inl) hkind, fun h => absurd (.inr (.inr h)) hkind⟩
  · exact ⟨fun h => absurd (hkind.imp_right .inl) h, fun _ => hpc, fun h => by simp [h] at hkind⟩
  · exact ⟨fun h => absurd (.inr (.inr rfl)) h, fun h => by simp [Instr.kind] at h, fun _ => hpc⟩

/-- Settles O39: of the instructions that complete only HLT leaves RUNNING. -/
theorem onlyHltEntersHalted : Obligations.OnlyHltEntersHalted := by
  intro s t hrun hstep ht
  obtain ⟨i, hf, hc⟩ := step_completes hrun hstep (by simp [ht])
  obtain hkept | ⟨rfl, -⟩ := hc.run_cases
  · simp [hkept, hrun] at ht
  · cases hc
    exact ⟨fetch_opcodeAt hf, rfl⟩

theorem Raises.cause_ne_aluUnsupported {f : FaultReport} (h : Raises s i f) : f.cause ≠ .aluUnsupported := by
  cases h <;> simp

theorem StepRaises.cause_ne_aluUnsupported {f : FaultReport} (h : StepRaises s f) : f.cause ≠ .aluUnsupported := by
  cases h with
  | instr _ hr => exact hr.cause_ne_aluUnsupported
  | _ => simp

/-- Settles O40: a new record is that of a fault the step raises. -/
theorem noStepRaisesAluUnsupported : Obligations.NoStepRaisesAluUnsupported := by
  intro s t f hstep ht hs
  by_cases hrun : s.run = .running
  · obtain ⟨i, -, hc⟩ | ⟨g, hg, rfl⟩ := step_cases hrun hstep
    · exact absurd (hc.fault ▸ ht) hs
    · obtain rfl := Option.some.inj ht
      exact hg.cause_ne_aluUnsupported
  · rw [step_terminal hrun] at hstep
    obtain rfl := Host.Outcome.next.inj hstep
    exact absurd ht hs

theorem State.reg_seven (s : State) : s.reg 7 = s.sp := rfl

/-- The stack instructions that complete decrement the stack pointer or leave an incremented value. -/
theorem Completes.sp (h : Completes s i t) (hkind : i.kind ∈ ([.push, .pop, .call, .ret] : List OpKind)) :
    t.sp.toNat + 1 = s.sp.toNat ∨ t.sp.toNat ≤ 0xF4 := by
  cases h with
  | push _ ha => exact .inl (by rwa [State.sp_advance, State.sp_setSp])
  | call _ ha _ => exact .inl (by rwa [State.sp_setPc, State.sp_setSp])
  | pop _ hb ha => exact .inr (by rw [State.sp_advance, State.sp_setSp]; omega)
  | ret hb ha => exact .inr (by rw [State.sp_setPc, State.sp_setSp]; omega)
  | _ => simp [Instr.kind] at hkind

/-- Settles O41: an increment ends at most at its limit, a decrement below its start, and a fault moves nothing. -/
theorem stackInstructionsRespectTheLimits : Obligations.StackInstructionsRespectTheLimits := by
  intro s t i hkind h
  rw [State.reg_seven, State.reg_seven]
  obtain hc | ⟨f, -, rfl⟩ := exec_cases h
  · have := hc.sp hkind
    omega
  · exact .inr le_rfl

end Sys2Proof.Machine
end

section
/-! PROOFS. Pairs of instructions: what PUSH and CALL store is what POP, RET and fetch read (spec/44_stack.md R92,
spec/45_call_ret.md R96, spec/20_memory.md R41). Each proof chains the statements of its instructions. -/

namespace Sys2Proof.Machine

/-- Settles O43: POP reads the cell PUSH wrote, at the stack pointer PUSH left, and moves it back. -/
theorem pushThenPopCopiesTheRegister : Obligations.PushThenPopCopiesTheRegister := by
  intro s a b r r' ha hb hr hr' hm hlow hhigh
  obtain ⟨p, hp⟩ := exists_spDec hlow
  obtain ⟨-, -, -, hpush⟩ := pushStoresBelowTheStackPointer a
  obtain ⟨t, ht, hdec, ⟨hcell, -⟩, hregs, -⟩ := (hpush s).1 r p ha hp hm
  have hsp : t.reg 7 = p := (hregs 7).trans (if_pos rfl)
  obtain ⟨-, -, -, hpop⟩ := popLoadsFromTheStackPointer b
  obtain ⟨u, hu, hval, hinc, -⟩ := (hpop t).1 r' hb hr' (by rw [hsp]; omega)
  refine ⟨t, u, ht, hu, ?copied, BitVec.eq_of_toNat_eq ?restored⟩
  case copied => rw [hval, hsp, hcell, if_neg hr]
  case restored => rw [hinc, hsp, hdec]

/-- Settles O44: RET reads the return address CALL stored and moves the stack pointer back. -/
theorem retResumesAfterTheCall : Obligations.RetResumesAfterTheCall := by
  intro s t u a r ha hm hpc hlow hhigh hcall hsp hcell
  obtain ⟨p, hp⟩ := exists_spDec hlow
  obtain ⟨-, -, -, hcallEffect⟩ := callStoresTheReturnAddressAndJumps a
  obtain ⟨t', ht', hdec, ⟨hstored, -⟩, hregs, -⟩ := (hcallEffect s).1 r p ha hp (by omega) hm
  obtain rfl := Host.Outcome.next.inj (hcall.symm.trans ht')
  have htsp : t.reg 7 = p := (hregs 7).trans (if_pos rfl)
  obtain ⟨-, -, hret⟩ := retJumpsToThePoppedByte
  obtain ⟨v, hv, hvpc, hinc, -⟩ := (hret u).1 (by rw [hsp, htsp]; omega)
  refine ⟨v, hv, ?resumed, BitVec.eq_of_toNat_eq ?restored⟩
  case resumed =>
    rw [hvpc, hsp, hcell, htsp, hstored, BitVec.toNat_ofNat]
    omega
  case restored => rw [hinc, hsp, htsp, hdec]

/-- Settles O45: RET jumps to the cell PUSH wrote; PUSH and RET move the stack pointer down and back and no other
register. -/
theorem pushThenRetJumps : Obligations.PushThenRetJumps := by
  intro s a r ha hr hm hlow hhigh
  obtain ⟨p, hp⟩ := exists_spDec hlow
  obtain ⟨-, -, -, hpush⟩ := pushStoresBelowTheStackPointer a
  obtain ⟨t, ht, hdec, ⟨hcell, -⟩, hregs, -⟩ := (hpush s).1 r p ha hp hm
  have hsp : t.reg 7 = p := (hregs 7).trans (if_pos rfl)
  obtain ⟨-, -, hret⟩ := retJumpsToThePoppedByte
  obtain ⟨u, hu, hpc, hinc, hframe, -⟩ := (hret t).1 (by rw [hsp]; omega)
  refine ⟨t, u, ht, hu, ?jumped, fun q => ?registers⟩
  case jumped => rw [hpc, hsp, hcell, if_neg hr]
  case registers =>
    by_cases hq : q = 7
    · subst hq
      exact BitVec.eq_of_toNat_eq (by rw [hinc, hsp, hdec])
    · rw [hframe q hq, hregs q, if_neg hq]

/-- Settles O46: the cell PUSH wrote is inside memory, where a fetch reads it. -/
theorem storedByteIsSeenByFetch : Obligations.StoredByteIsSeenByFetch := by
  intro s t src a r hr ha hm hexec u k hmem hpc
  obtain ⟨-, -, -, hpush⟩ := pushStoresBelowTheStackPointer src
  obtain ⟨t', ht', -, ⟨hcell, -⟩, -⟩ := (hpush s).1 r a hr ha hm
  obtain rfl := Host.Outcome.next.inj (hexec.symm.trans ht')
  refine fetchByte_ok_iff.2 ⟨hpc ▸ a.isLt, ?_⟩
  rw [hpc, State.byteAt, hmem]
  exact hcell

end Sys2Proof.Machine
end
